-- ==== Sys2Proof/Word.lean ====
section
/-! DEFINITION. The widths the spec names (00_scope.md R8, 30_encoding.md R62). A time is a `Nat` of microseconds: its width
`TS_W` is a parameter (R6) that the time input keeps, `Machine.timeIn`, and the block only subtracts times, over the signed
integers (41_pulse_demodulator.md R111). -/

namespace Sys2Proof

/-- One byte of a packet: 8 bits, unsigned (R8). -/
abbrev Byte := BitVec 8

/-- The unit count of a pulse code: its bits 6:0 (R62). -/
abbrev Units := BitVec 7

end Sys2Proof
end

