-- ==== Sys2Proof/Config.lean ====
section
/-! DEFINITION. The implementation parameters of 00_scope.md R6, all of them, as a record. The default record is in
Machine/Params.lean. -/

namespace Sys2Proof

/-- `SHORT_POLICY` (R6, R82): what decode does with a buffer shorter than `PKT_LEN` bytes. -/
inductive ShortPolicy where
  | rejectShort
  | padZero
  deriving DecidableEq, Repr

/-- `TERM13` (R6, R122): what a space at the last position does when it is within the space tolerance. -/
inductive Term13 where
  | emitAnySpace
  | resetIfInTol
  deriving DecidableEq, Repr

/-- The build-time parameters (R6), in the order of its table; no packet writes one (10_state.md R32). -/
structure Config where
  /-- `PKT_LEN`: bytes in every USB packet. -/
  pktLen : Nat
  /-- `NCODES`: pulse-code bytes per receiver-data packet. -/
  nCodes : Nat
  /-- `SKIP_BYTE`: the pulse-code byte value that is skipped. -/
  skipByte : Byte
  /-- `SAT_UNITS`: the unit count that means carry. -/
  satUnits : Units
  /-- `CARRY_UNITS`: units added to the accumulator per carry. -/
  carryUnits : Nat
  /-- `UNIT_US` is the exact rational `unitNum / unitDen`, in microseconds. -/
  unitNum : Nat
  unitDen : Nat
  /-- `T_SPACE_US`. -/
  tSpace : Nat
  /-- `T_PULSE_US`. -/
  tPulse : Nat
  /-- `T_HEADER_US`. -/
  tHeader : Nat
  /-- `TOL_US`, symmetric and inclusive. -/
  tol : Nat
  /-- `DEBOUNCE_US`. -/
  debounce : Nat
  /-- `NBITS`: data bits per frame. -/
  nBits : Nat
  /-- `LAST_POS`: the last body position. -/
  lastPos : Nat
  /-- `ACC_W`: width of the saturating carry counter. -/
  accW : Nat
  /-- `TS_W`: width of a timestamp. -/
  tsW : Nat
  /-- `TERM13`. -/
  term13 : Term13
  /-- `SHORT_POLICY`. -/
  shortPolicy : ShortPolicy
  /-- `WRITE_TIMEOUT_US`: the host's outbound write timeout (60_exceptions.md R164); the block never reads it. -/
  writeTimeout : Nat
  deriving DecidableEq, Repr

/-- A record the rules make sense for: `UNIT_US` has a denominator (`ceil` of R9 asks `d > 0`), the packet is the one that the
format tables lay out, the codes and one length byte (30_encoding.md R60, R61), and `LAST_POS` = 2 · NBITS − 1 (R6). -/
def Config.wf (c : Config) : Bool :=
  decide (0 < c.unitDen ∧ c.pktLen = 8 ∧ c.nCodes + 1 = c.pktLen ∧ c.lastPos + 1 = 2 * c.nBits)

end Sys2Proof
end

