-- ==== Sys2Proof/Machine/Params.lean ====
section
/-! DEFINITION. The default values of the parameters (00_scope.md R6). -/

namespace Sys2Proof

/-- The defaults: "the value the spec fixes for this hardware" (R6). -/
def Config.default : Config where
  pktLen := 8
  nCodes := 7
  skipByte := 0x80#8
  satUnits := 127#7
  carryUnits := 128
  unitNum := 2133
  unitDen := 100
  tSpace := 600
  tPulse := 1200
  tHeader := 2400
  tol := 100
  debounce := 250000
  nBits := 7
  lastPos := 13
  accW := 16
  tsW := 64
  term13 := .emitAnySpace
  shortPolicy := .rejectShort
  writeTimeout := 2000000

end Sys2Proof
end

