-- ==== Sys2Proof/Syntax.lean ====
section
/-! DEFINITION. The instruction syntax: one constructor of `Instr` per row of spec/opcode_table.json, in its order,
with the operand types of 30_encoding.md R60-R69 and 40_packet_codec.md. -/

namespace Sys2Proof

/-- The two named directions (30_encoding.md R63). -/
inductive NamedDir where
  | h2d
  | d2h
  deriving DecidableEq, Repr

/-- `Dir = H2D | D2H | DirUnknown(v)` (40_packet_codec.md, decode result type). -/
inductive Dir where
  | named (d : NamedDir)
  | unknown (v : Byte)
  deriving DecidableEq, Repr

/-- The six named packet types (30_encoding.md R64). -/
inductive NamedType where
  | version
  | rxEnable
  | rxDisable
  | rxData
  | bofRx
  | bofTx
  deriving DecidableEq, Repr

/-- `Type = VERSION | .. | BOF_TX | TypeUnknown(v)` (40_packet_codec.md, decode result type). -/
inductive PType where
  | named (t : NamedType)
  | unknown (v : Byte)
  deriving DecidableEq, Repr

/-- data0 .. data3 of a control packet (30_encoding.md R60, R69). -/
structure Data4 where
  d0 : Byte
  d1 : Byte
  d2 : Byte
  d3 : Byte
  deriving DecidableEq, Repr

/-- The default data bytes: all 0x00 (40_packet_codec.md R94). -/
def Data4.zero : Data4 := ⟨0#8, 0#8, 0#8, 0#8⟩

/-- data0 first. -/
def Data4.toList (d : Data4) : List Byte := [d.d0, d.d1, d.d2, d.d3]

/-- The pulse codes of a receiver-data packet, code0 first (30_encoding.md R61, R69): the order they are processed in
(20_memory.md R43). `Instr.wf` asks for `NCODES` of them. -/
abbrev Codes := List Byte

/-- The class of one pulse-code byte, with its operands (30_encoding.md R66, R67). -/
inductive CodeClass where
  | skip
  /-- `s` is bit 7, which a carry ignores. -/
  | carry (s : Bool)
  | mark (n : Units)
  | space (n : Units)
  deriving DecidableEq, Repr

/-- The input items the block acts on, one constructor per row of spec/opcode_table.json. -/
inductive Instr where
  -- format PKT64
  | rxd (codes : Codes) (declLen : Byte)
  | ctlVersion (dir : Byte) (data : Data4)
  | ctlRxEnable (dir : Byte) (data : Data4)
  | ctlRxDisable (dir : Byte) (data : Data4)
  | ctlRxData (dir : Byte) (data : Data4)
  | ctlBofRx (dir : Byte) (data : Data4)
  | ctlBofTx (dir : Byte) (data : Data4)
  | ctlUnknown (dir : Byte) (v : Byte) (data : Data4)
  -- format PCODE8
  | skip
  | carry (s : Bool)
  | mark (n : Units)
  | space (n : Units)
  -- format ENC
  | encode (dir : NamedDir) (type : NamedType) (data : Data4)
  | getVersion
  | rxEnable
  | rxDisable
  deriving DecidableEq, Repr

/-- The host's outbound requests, the rows of format ENC: they are not decoded from bits (30_encoding.md R70, R77;
40_packet_codec.md R94). -/
inductive Request where
  | encode (dir : NamedDir) (type : NamedType) (data : Data4)
  | getVersion
  | rxEnable
  | rxDisable
  deriving DecidableEq, Repr

/-- What one instruction is presented as: the three formats of spec/opcode_table.json. -/
inductive Item where
  /-- PKT64: the bytes of one inbound packet, in wire order, of any length. -/
  | packet (buf : List Byte)
  /-- PCODE8: one pulse code. -/
  | code (b : Byte)
  /-- ENC: one outbound request. -/
  | request (r : Request)
  deriving DecidableEq, Repr

/-- What decoding answers: an instruction, or one of the two length errors by name (40_packet_codec.md R81, R82). -/
inductive Decoded where
  | ok (i : Instr)
  | malformed
  | short
  deriving DecidableEq, Repr

end Sys2Proof
end

