-- ==== Sys2Proof/Decode.lean ====
section
/-! DEFINITION. Decoding (30_encoding.md R60-R73, 40_packet_codec.md R80-R92), total on any bytes, then the encoder and
the opcode table's words. -/

namespace Sys2Proof

/-- The direction bytes (30_encoding.md R63). -/
def dirCode : NamedDir → Byte
  | .h2d => 0xCD#8
  | .d2h => 0xDC#8

/-- The packet type bytes (30_encoding.md R64). -/
def typeCode : NamedType → Byte
  | .version => 0x01#8
  | .rxEnable => 0x12#8
  | .rxDisable => 0x14#8
  | .rxData => 0x30#8
  | .bofRx => 0x31#8
  | .bofTx => 0x32#8

/-- `DirOf` (40_packet_codec.md R84). -/
def dirOf (v : Byte) : Dir :=
  if v = 0xCD#8 then .named .h2d
  else if v = 0xDC#8 then .named .d2h
  else .unknown v

/-- `TypeOf` (40_packet_codec.md R84). -/
def typeOf (v : Byte) : PType :=
  if v = 0x01#8 then .named .version
  else if v = 0x12#8 then .named .rxEnable
  else if v = 0x14#8 then .named .rxDisable
  else if v = 0x30#8 then .named .rxData
  else if v = 0x31#8 then .named .bofRx
  else if v = 0x32#8 then .named .bofTx
  else .unknown v

/-- The unit count `b[6:0]` (30_encoding.md R62). -/
def unitsOf (b : Byte) : Units := b.extractLsb' 0 7

/-- The space flag `b[7]` (30_encoding.md R62). -/
def spaceFlag (b : Byte) : Bool := b.getLsbD 7

/-- The class of a pulse-code byte, first match wins (30_encoding.md R66). -/
def classOf (cfg : Config) (b : Byte) : CodeClass :=
  if b = cfg.skipByte then .skip
  else if unitsOf b = cfg.satUnits then .carry (spaceFlag b)
  else if spaceFlag b = false then .mark (unitsOf b)
  else .space (unitsOf b)

/-- The table row of a class. -/
def classInstr : CodeClass → Instr
  | .skip => .skip
  | .carry s => .carry s
  | .mark n => .mark n
  | .space n => .space n

/-- The PCODE8 rows: every byte value has a class (30_encoding.md R66). -/
def decodeCode (cfg : Config) (b : Byte) : Instr := classInstr (classOf cfg b)

/-- The CTL rows, chosen by byte3; byte2 is a free field (30_encoding.md R70). -/
def decodeControl (dir type : Byte) (data : Data4) : Instr :=
  if type = 0x01#8 then .ctlVersion dir data
  else if type = 0x12#8 then .ctlRxEnable dir data
  else if type = 0x14#8 then .ctlRxDisable dir data
  else if type = 0x30#8 then .ctlRxData dir data
  else if type = 0x31#8 then .ctlBofRx dir data
  else if type = 0x32#8 then .ctlBofTx dir data
  else .ctlUnknown dir type data

/-- Packet byte `i`, the rules' `buf[i]` (00_scope.md R9). A byte the buffer does not have reads as 0x00; a buffer of
`PKT_LEN` bytes under a well-formed `Config` has every byte the formats read (notes/assumptions/6). -/
def byteAt (buf : List Byte) (i : Nat) : Byte := buf.getD i 0#8

/-- The PKT64 rows: CTL iff byte0 = byte1 = 0x00, else RXD, whose codes are the first `NCODES` bytes and whose declared length
is the byte after them (30_encoding.md R61, R65, R69). -/
def decodeFields (cfg : Config) (buf : List Byte) : Instr :=
  if byteAt buf 0 = 0#8 ∧ byteAt buf 1 = 0#8 then
    decodeControl (byteAt buf 2) (byteAt buf 3) ⟨byteAt buf 4, byteAt buf 5, byteAt buf 6, byteAt buf 7⟩
  else .rxd (buf.take cfg.nCodes) (byteAt buf cfg.nCodes)

/-- What `SHORT_POLICY` makes of the buffer before the rows are tried (40_packet_codec.md R80, R82). -/
def applyShortPolicy (cfg : Config) (buf : List Byte) : List Byte :=
  match cfg.shortPolicy with
  | .rejectShort => buf
  | .padZero => buf ++ List.replicate (cfg.pktLen - buf.length) 0#8

/-- One inbound buffer of any length: the length checks come before any row (40_packet_codec.md R80-R82). -/
def decodePacket (cfg : Config) (buf : List Byte) : Decoded :=
  if cfg.pktLen < buf.length then .malformed
  else if (applyShortPolicy cfg buf).length < cfg.pktLen then .short
  else .ok (decodeFields cfg (applyShortPolicy cfg buf))

/-- The ENC rows: a request names its own row (30_encoding.md R70). -/
def requestInstr : Request → Instr
  | .encode dir type data => .encode dir type data
  | .getVersion => .getVersion
  | .rxEnable => .rxEnable
  | .rxDisable => .rxDisable

/-- Decoding in any of the three formats. -/
def decode (cfg : Config) : Item → Decoded
  | .packet buf => decodePacket cfg buf
  | .code b => .ok (decodeCode cfg b)
  | .request r => .ok (requestInstr r)

/-! ## The encoder -/

/-- The eight bytes of the control packet format CTL (30_encoding.md R60). -/
def controlBytes (dir type : Byte) (data : Data4) : List Byte :=
  0#8 :: 0#8 :: dir :: type :: data.toList

/-- One byte of the pulse-code format PCODE: bit 7 is `s`, bits 6:0 are `n` (30_encoding.md R62). -/
def codeByte (s : Bool) (n : Units) : Byte := BitVec.ofBool s ++ n

/-- The words of an instruction, from the format tables of 30_encoding.md R60-R62 and R64. -/
def encode (cfg : Config) : Instr → Item
  | .rxd codes declLen => .packet (codes ++ [declLen])
  | .ctlVersion dir data => .packet (controlBytes dir (typeCode .version) data)
  | .ctlRxEnable dir data => .packet (controlBytes dir (typeCode .rxEnable) data)
  | .ctlRxDisable dir data => .packet (controlBytes dir (typeCode .rxDisable) data)
  | .ctlRxData dir data => .packet (controlBytes dir (typeCode .rxData) data)
  | .ctlBofRx dir data => .packet (controlBytes dir (typeCode .bofRx) data)
  | .ctlBofTx dir data => .packet (controlBytes dir (typeCode .bofTx) data)
  | .ctlUnknown dir v data => .packet (controlBytes dir v data)
  | .skip => .code cfg.skipByte
  | .carry s => .code (codeByte s cfg.satUnits)
  | .mark n => .code (codeByte false n)
  | .space n => .code (codeByte true n)
  | .encode dir type data => .request (.encode dir type data)
  | .getVersion => .request .getVersion
  | .rxEnable => .request .rxEnable
  | .rxDisable => .request .rxDisable

/-- What `EncodeReq` puts out: exactly 8 bytes in the CTL format (40_packet_codec.md R94). -/
def encodeRequest (dir : NamedDir) (type : NamedType) (data : Data4) : List Byte :=
  controlBytes (dirCode dir) (typeCode type) data

/-! ## The opcode table's words -/

/-- The bytes of a `k`-byte word, the most significant first: `P = {byte0, .., byte7}` has byte0 in bits 63:56
(20_memory.md R42). -/
def wordBytes : Nat → Nat → List Byte
  | 0, _ => []
  | k + 1, w => BitVec.ofNat 8 (w >>> (8 * k)) :: wordBytes k w

/-- A table word as an item: 8 bits are a PCODE8 byte, 64 bits a PKT64 packet, more than 64 a longer buffer. The rows of
format ENC are not decoded from bits (30_encoding.md R70), so no word stands for one (notes/assumptions/7). -/
def tableItem (nbits w : Nat) : Item :=
  if nbits ≤ 8 then .code (BitVec.ofNat 8 (w % 2 ^ nbits))
  else .packet (wordBytes (max Config.default.pktLen ((nbits + 7) / 8)) (w % 2 ^ nbits))

/-- The instruction the decoder of the default block reads from a table word, bits numbered as spec/opcode_table.json numbers
them. -/
def decodeTableWord (nbits w : Nat) : Option Instr :=
  match decode Config.default (tableItem nbits w) with
  | .ok i => some i
  | .malformed => none
  | .short => none

/-- A row of spec/opcode_table.json as the table writes it: `negate` means "selected when (P & mask) ≠ match". -/
structure Row where
  mask : Nat
  value : Nat
  negate : Bool
  deriving DecidableEq, Repr

/-- The `match` and `mask` columns of spec/opcode_table.json, letter for letter. -/
def tableRow : Instr → Row
  | .rxd _ _ => ⟨0xFFFF000000000000, 0x0000000000000000, true⟩
  | .ctlVersion _ _ => ⟨0xFFFF00FF00000000, 0x0000000100000000, false⟩
  | .ctlRxEnable _ _ => ⟨0xFFFF00FF00000000, 0x0000001200000000, false⟩
  | .ctlRxDisable _ _ => ⟨0xFFFF00FF00000000, 0x0000001400000000, false⟩
  | .ctlRxData _ _ => ⟨0xFFFF00FF00000000, 0x0000003000000000, false⟩
  | .ctlBofRx _ _ => ⟨0xFFFF00FF00000000, 0x0000003100000000, false⟩
  | .ctlBofTx _ _ => ⟨0xFFFF00FF00000000, 0x0000003200000000, false⟩
  | .ctlUnknown _ _ _ => ⟨0xFFFF000000000000, 0x0000000000000000, false⟩
  | .skip => ⟨0xFF, 0x80, false⟩
  | .carry _ => ⟨0x7F, 0x7F, false⟩
  | .mark _ => ⟨0x80, 0x00, false⟩
  | .space _ => ⟨0x80, 0x80, false⟩
  | .encode _ _ _ => ⟨0xFFFF000000000000, 0x0000000000000000, false⟩
  | .getVersion => ⟨0xFFFFFFFFFFFFFFFF, 0x0000CD0100000000, false⟩
  | .rxEnable => ⟨0xFFFFFFFFFFFFFFFF, 0x0000CD1200000000, false⟩
  | .rxDisable => ⟨0xFFFFFFFFFFFFFFFF, 0x0000CD1400000000, false⟩

/-- The bytes a row's `match` and `mask` speak of: an inbound packet's or a pulse code's own bytes, and for the ENC rows
the eight bytes the request produces. -/
def rowBytes (i : Instr) : List Byte :=
  match encode Config.default i with
  | .packet buf => buf
  | .code b => [b]
  | .request (.encode dir type data) => encodeRequest dir type data
  | .request .getVersion => encodeRequest .h2d .version .zero
  | .request .rxEnable => encodeRequest .h2d .rxEnable .zero
  | .request .rxDisable => encodeRequest .h2d .rxDisable .zero

/-- The bytes agree with the row: masked byte by byte they are the match value, or, where the row negates, they are not. -/
def Row.admits (r : Row) (bytes : List Byte) : Bool :=
  (bytes.zipWith (· &&& ·) (wordBytes bytes.length r.mask) == wordBytes bytes.length r.value) != r.negate

end Sys2Proof
end

