-- ==== Sys2Proof/Machine/State.lean ====
section
/-! DEFINITION. The machine's state, its outputs, its reasons to stop, and the state after reset. -/

namespace Sys2Proof.Machine

open Sys2Proof

/-- The status of a packet transaction (60_exceptions.md R167). -/
inductive Status where
  | control
  | data
  | malformed
  | short
  deriving DecidableEq, Repr

/-- The decode result of a packet transaction (40_packet_codec.md, decode result type). -/
inductive Result where
  | malformed
  | short
  | control (dir : Dir) (type : PType) (data : Data4)
  | data (codes : Codes) (declLen : Byte)
  deriving DecidableEq, Repr

/-- The class of a command code (42_command_output.md R151). -/
inductive CmdClass where
  | none
  | volumeUp
  | volumeDown
  | mute
  | power
  | unknown (code : Nat)
  deriving DecidableEq, Repr

/-- A command event `Event(code, cls, t)` (42_command_output.md R150). -/
structure Event where
  code : Nat
  cls : CmdClass
  t : Nat
  deriving DecidableEq, Repr

/-- What one step puts out to the host (20_memory.md R40). -/
inductive Output where
  /-- A packet transaction: its status, its result and its command events in byte order (40_packet_codec.md R80). -/
  | packet (status : Status) (result : Result) (events : List Event)
  /-- One pulse code presented on its own: the event of `DemodByte`, or none (41_pulse_demodulator.md R101). -/
  | code (event : Option Event)
  /-- An encode transaction: the bytes for the device (40_packet_codec.md R94). -/
  | encoded (bytes : List Byte)
  deriving DecidableEq, Repr

/-- The command events of an output, in order. -/
def Output.events : Output → List Event
  | .packet _ _ evs => evs
  | .code ev => ev.toList
  | .encoded _ => []

/-- What the host does to the block (60_exceptions.md R168, R177, R182; 70_reset_and_hazards.md R190, R191). A packet
transaction carries its `now`; an encode transaction carries none (40_packet_codec.md R94). `code` is one pulse code for
the demodulator on its own (notes/assumptions/5). -/
inductive Input where
  | reset
  | shutdown
  | packet (buf : List Byte) (now : Nat)
  | code (b : Byte) (now : Nat)
  | request (r : Request)
  deriving DecidableEq, Repr

/-- The demodulator state, "a record of exactly five elements" (10_state.md R20). -/
structure DS where
  /-- The carry bytes seen since the last evaluated pulse code, saturating (R21). -/
  accCnt : Nat
  /-- A header has been accepted and the frame body is being decoded (R22). -/
  receiving : Bool
  /-- The position, −1..`LAST_POS` (R23). -/
  bitPos : Int
  /-- The bit buffer, front (last inserted, most significant) first (R24). -/
  bitBuf : List Bool
  /-- The time of the last emitted command, `none` for NONE (R25). -/
  lastCmd : Option Nat
  deriving DecidableEq, Repr

/-- Why a step stops with a fault. -/
inductive Fault where
  /-- Raised by every meaning, and by the length errors, when the block is absent: a transaction was presented after
  shutdown and before a new block reset, which the spec forbids and gives no effect (70_reset_and_hazards.md R191). Safe:
  nothing is claimed of the hardware there. -/
  | blockAbsent
  deriving DecidableEq, Repr

/-- Why a step is refused. -/
inductive Refusal where
  /-- Raised by an arm of `exec` whose instruction has no meaning yet; no arm does now. Safe: nothing is claimed. -/
  | notModelled (mnemonic : String)
  deriving DecidableEq, Repr

/-- The machine. `ds` is the block's whole storage (10_state.md R20, R29). The other fields are the model's own: the
build-time parameters, whether the block is present, the time input, the host's stream, the record of the outputs. -/
structure State where
  /-- The build-time parameters (00_scope.md R6); no step writes them (10_state.md R32). -/
  cfg : Config
  /-- The demodulator state (10_state.md R20). -/
  ds : DS
  /-- "either present, between the reset .. and the shutdown .., or absent" (60_exceptions.md R184). -/
  present : Bool
  /-- The time input of the packet transaction in progress (60_exceptions.md R177). -/
  now : Nat
  /-- What the host is going to present, first first; the block sees the head alone (notes/assumptions/1). -/
  inputs : List Input
  /-- What the block has put out, oldest first; no step reads it (notes/assumptions/2). -/
  outputs : List Output
  deriving DecidableEq, Repr

/-- The reset values of 10_state.md R21-R25 and 70_reset_and_hazards.md R190. -/
def DS.reset : DS where
  accCnt := 0
  receiving := false
  bitPos := -1
  bitBuf := []
  lastCmd := none

/-- Right after the block reset with the default parameters, before the host has presented anything. -/
def State.reset : State where
  cfg := Config.default
  ds := DS.reset
  present := true
  now := 0
  inputs := []
  outputs := []

/-- The command event output: every event put out so far, in order (00_scope.md R9, 20_memory.md R54). -/
def State.events (s : State) : List Event := s.outputs.flatMap Output.events

end Sys2Proof.Machine
end

