-- ==== Sys2Proof/Machine/Operands.lean ====
section
/-! DEFINITION. Operand assembly: the elapsed duration of a pulse code and the 7-bit code of a frame
(30_encoding.md R67, R68; 41_pulse_demodulator.md R103, R105, R124; 10_state.md R26). -/

namespace Sys2Proof.Machine

open Sys2Proof

/-- A time as the block's time input takes it: `TS_W` bits, unsigned (60_exceptions.md R177; notes/assumptions/3). -/
def timeIn (cfg : Config) (t : Nat) : Nat := t % 2 ^ cfg.tsW

/-- `ceil(p / d)` for `d > 0` (00_scope.md R9). -/
def ceilDiv (p d : Nat) : Nat := (p + d - 1) / d

/-- `ceil((n + 1) × UNIT_US)`: a count of `n` stands for `n + 1` units (R67, R105). -/
def unitsTime (cfg : Config) (n : Units) : Nat := ceilDiv ((n.toNat + 1) * cfg.unitNum) cfg.unitDen

/-- `ceil(acc_cnt × CARRY_UNITS × UNIT_US)` (R105). -/
def carryTime (cfg : Config) (accCnt : Nat) : Nat := ceilDiv (accCnt * cfg.carryUnits * cfg.unitNum) cfg.unitDen

/-- The elapsed duration in microseconds: the two ceilings taken separately, then added (R105). -/
def elapsed (cfg : Config) (n : Units) (accCnt : Nat) : Nat := unitsTime cfg n + carryTime cfg accCnt

/-- `Parse(bit_buf)`: front to back as an unsigned binary number, the front most significant (R124). -/
def parse (bits : List Bool) : Nat := bits.foldl (fun acc b => 2 * acc + b.toNat) 0

/-- The insertion of a bit into the equivalent 7-bit register, `SR <- {v, SR[6:1]}` (10_state.md R26). -/
def srInsert (sr : BitVec 7) (v : Bool) : BitVec 7 := BitVec.ofBool v ++ sr.extractLsb' 1 6

end Sys2Proof.Machine
end

