-- ==== Sys2Proof/Machine/Flags.lean ====
section
/-! DEFINITION. The block's conditions: tolerance windows, debounce, the classification of a code, and the status numbers
(41_pulse_demodulator.md R106, R111; 42_command_output.md R151; 60_exceptions.md R167). -/

namespace Sys2Proof.Machine

open Sys2Proof

/-- `InTol(e, T) = |e − T| ≤ TOL_US`, over integers, inclusive (R106). -/
def inTol (cfg : Config) (e ref : Nat) : Bool := decide (((e : Int) - (ref : Int)).natAbs ≤ cfg.tol)

/-- The 600 ± 100 window. -/
def inSpaceWindow (cfg : Config) (e : Nat) : Bool := inTol cfg e cfg.tSpace

/-- The 1200 ± 100 window. -/
def inPulseWindow (cfg : Config) (e : Nat) : Bool := inTol cfg e cfg.tPulse

/-- The 2400 ± 100 window. -/
def inHeaderWindow (cfg : Config) (e : Nat) : Bool := inTol cfg e cfg.tHeader

/-- `DebounceOk`: no command yet, or strictly more than `DEBOUNCE_US` since the last, as a signed difference (R111). -/
def debounceOk (cfg : Config) (lastCmd : Option Nat) (now : Nat) : Bool :=
  match lastCmd with
  | none => true
  | some t => decide ((now : Int) - (t : Int) > (cfg.debounce : Int))

/-- `Classify(code)` (42_command_output.md R151). -/
def classify (code : Nat) : CmdClass :=
  if code = 0 then .none
  else if code = 18 then .volumeUp
  else if code = 19 then .volumeDown
  else if code = 20 then .mute
  else if code = 21 then .power
  else .unknown code

/-- The number of a status (60_exceptions.md R167). -/
def statusCode : Status → Nat
  | .control => 0
  | .data => 1
  | .malformed => 2
  | .short => 3

end Sys2Proof.Machine
end

