-- ==== Sys2Proof/Machine/Ops.lean ====
section
/-! DEFINITION. The shared operations: the protocol reset, the emit, the two resets of the block, the length errors, and
how a transaction ends. The block has no memory and no registers to read by number (10_state.md R29, 20_memory.md R40); it
has no trap entry and no return (60_exceptions.md R174, R175): the protocol reset and the length errors stand for them. -/

namespace Sys2Proof.Machine

open Sys2Proof

/-- `satinc_N(x) = min(x + 1, 2^N − 1)` (00_scope.md R9). -/
def satInc (n x : Nat) : Nat := min (x + 1) (2 ^ n - 1)

/-- The accumulator cleared, whatever the state or the outcome (41_pulse_demodulator.md R105). -/
def clearAcc (ds : DS) : DS := { ds with accCnt := 0 }

/-- `ProtocolReset()`: writes `bit_pos`, `bit_buf` and `receiving` and nothing else (41_pulse_demodulator.md R130, R131). -/
def protocolReset (ds : DS) : DS := { ds with bitPos := -1, bitBuf := [], receiving := false }

/-- The event of `EmitCommand(now)` (41_pulse_demodulator.md R125). -/
def emitEvent (ds : DS) (now : Nat) : Event := ⟨parse ds.bitBuf, classify (parse ds.bitBuf), now⟩

/-- The state after `EmitCommand(now)`: `last_cmd <- now` (41_pulse_demodulator.md R125). -/
def emitCommand (ds : DS) (now : Nat) : DS := { ds with lastCmd := some now }

/-- The bit `v` inserted at the front, and the position advanced (41_pulse_demodulator.md R115, R116). -/
def pushBit (ds : DS) (v : Bool) : DS := { ds with bitBuf := v :: ds.bitBuf, bitPos := ds.bitPos + 1 }

/-- The position alone advanced (41_pulse_demodulator.md R113, R118). -/
def advance (ds : DS) : DS := { ds with bitPos := ds.bitPos + 1 }

/-- One output more. -/
def putOut (s : State) (o : Output) : State := { s with outputs := s.outputs ++ [o] }

/-- A transaction runs on a present block only (70_reset_and_hazards.md R191). -/
def whenPresent (s : State) (t : State) : Host.Outcome State Fault Refusal :=
  if s.present then .next t else .fault .blockAbsent

/-- The block reset (70_reset_and_hazards.md R190): every element of `DS` at its reset value, no event, no status. -/
def blockReset (s : State) : State := { s with ds := DS.reset, present := true }

/-- The shutdown (70_reset_and_hazards.md R191): `DS` is discarded, a partial frame with it, and the block is absent. -/
def shutdown (s : State) : State := { s with ds := DS.reset, present := false }

/-- A packet transaction that ends in a length error: its status and result, no event, `DS` unchanged
(60_exceptions.md R161, R162). -/
def rejectPacket (status : Status) (result : Result) (s : State) : State := putOut s (.packet status result [])

/-- A packet transaction that ends as a control packet: no event, `DS` unchanged (40_packet_codec.md R88). -/
def controlPacket (dir : Byte) (type : PType) (data : Data4) (s : State) : State :=
  putOut s (.packet .control (.control (dirOf dir) type data) [])

/-- An encode transaction: eight bytes out, nothing else (40_packet_codec.md R94). -/
def encodePacket (dir : NamedDir) (type : NamedType) (data : Data4) (s : State) : State :=
  putOut s (.encoded (encodeRequest dir type data))

/-- A single pulse code's end: the new `DS`, and the event if there is one (41_pulse_demodulator.md R101). -/
def finishCode (s : State) (r : DS × Option Event) : State := putOut { s with ds := r.1 } (.code r.2)

/-- A receiver-data packet's end (40_packet_codec.md R93). -/
def finishData (codes : Codes) (declLen : Byte) (s : State) (r : DS × List Event) : State :=
  putOut { s with ds := r.1 } (.packet .data (.data codes declLen) r.2)

end Sys2Proof.Machine
end

