-- ==== Sys2Proof/Machine/Outbound.lean ====
section
/-! DEFINITION. The meanings of the ENC rows: one encode transaction each (40_packet_codec.md R94, 30_encoding.md R77). -/

namespace Sys2Proof.Machine

open Sys2Proof

/-- ENCODE (R94). -/
def execEncode (dir : NamedDir) (type : NamedType) (data : Data4) (s : State) : Host.Outcome State Fault Refusal :=
  whenPresent s (encodePacket dir type data s)

/-- GETVERSION = `ENC H2D VERSION 00 00 00 00` (R77). -/
def execGetVersion (s : State) : Host.Outcome State Fault Refusal :=
  whenPresent s (encodePacket .h2d .version .zero s)

/-- RXENABLE = `ENC H2D RX_ENABLE 00 00 00 00` (R77). -/
def execRxEnable (s : State) : Host.Outcome State Fault Refusal :=
  whenPresent s (encodePacket .h2d .rxEnable .zero s)

/-- RXDISABLE = `ENC H2D RX_DISABLE 00 00 00 00` (R77). -/
def execRxDisable (s : State) : Host.Outcome State Fault Refusal :=
  whenPresent s (encodePacket .h2d .rxDisable .zero s)

end Sys2Proof.Machine
end

