-- ==== Sys2Proof/Machine/Demod.lean ====
section
/-! DEFINITION. The pulse demodulator: the state rules, `DemodByte` and `DemodPacket`
(41_pulse_demodulator.md R100-R122, R140). -/

namespace Sys2Proof.Machine

open Sys2Proof

/-- `IDLE` (R110, R112): `p` is "a mark", `e` the elapsed duration. -/
def ruleIdle (cfg : Config) (ds : DS) (p : Bool) (e : Nat) (now : Nat) : DS :=
  if p && debounceOk cfg ds.lastCmd now && inHeaderWindow cfg e then { ds with receiving := true, bitPos := -1 } else ds

/-- `HSPACE` (R113, R114). -/
def ruleHeaderSpace (cfg : Config) (ds : DS) (p : Bool) (e : Nat) : DS :=
  if !p && inSpaceWindow cfg e then { ds with bitPos := 0 } else protocolReset ds

/-- `MARKk` (R115, R116, R117). -/
def ruleDataMark (cfg : Config) (ds : DS) (p : Bool) (e : Nat) : DS :=
  if p && inPulseWindow cfg e then pushBit ds true
  else if p && inSpaceWindow cfg e then pushBit ds false
  else protocolReset ds

/-- `SPACEk` (R118, R119). -/
def ruleDataSpace (cfg : Config) (ds : DS) (p : Bool) (e : Nat) : DS :=
  if !p && inSpaceWindow cfg e then advance ds else protocolReset ds

/-- `TERM` (R120, R121, R122): a mark resets; a space emits and resets, but for an in-tolerance one under
`RESET_IF_IN_TOL`. -/
def ruleTerm (cfg : Config) (ds : DS) (p : Bool) (e : Nat) (now : Nat) : DS × Option Event :=
  if p then (protocolReset ds, none)
  else if inSpaceWindow cfg e && cfg.term13 == .resetIfInTol then (protocolReset ds, none)
  else (protocolReset (emitCommand ds now), some (emitEvent ds now))

/-- The state dispatch of an evaluated code: header detection or body, never both (R109, R140). -/
def stateRule (cfg : Config) (ds : DS) (p : Bool) (e : Nat) (now : Nat) : DS × Option Event :=
  if ds.receiving = false then (ruleIdle cfg ds p e now, none)
  else if ds.bitPos = -1 then (ruleHeaderSpace cfg ds p e, none)
  else if ds.bitPos % 2 = 0 then (ruleDataMark cfg ds p e, none)
  else if ds.bitPos < cfg.lastPos then (ruleDataSpace cfg ds p e, none)
  else ruleTerm cfg ds p e now

/-- A `MARK` or `SPACE` byte: the elapsed duration from the accumulator, which is then cleared whatever follows (R105), and
the state rule. -/
def evaluate (cfg : Config) (ds : DS) (p : Bool) (n : Units) (now : Nat) : DS × Option Event :=
  stateRule cfg (clearAcc ds) p (elapsed cfg n ds.accCnt) now

/-- `SKIP` (R102). -/
def demodSkip (ds : DS) : DS × Option Event := (ds, none)

/-- `CARRY` (R104): the accumulator alone, whatever the polarity. -/
def demodCarry (cfg : Config) (ds : DS) : DS × Option Event := ({ ds with accCnt := satInc cfg.accW ds.accCnt }, none)

/-- `MARK`. -/
def demodMark (cfg : Config) (ds : DS) (n : Units) (now : Nat) : DS × Option Event := evaluate cfg ds true n now

/-- `SPACE`. -/
def demodSpace (cfg : Config) (ds : DS) (n : Units) (now : Nat) : DS × Option Event := evaluate cfg ds false n now

/-- `DemodByte(DS, b, now)` (R101, R140). -/
def demodByte (cfg : Config) (ds : DS) (b : Byte) (now : Nat) : DS × Option Event :=
  match classOf cfg b with
  | .skip => demodSkip ds
  | .carry _ => demodCarry cfg ds
  | .mark n => demodMark cfg ds n now
  | .space n => demodSpace cfg ds n now

/-- The codes in order, with one `now` (R100): the events in the order of the bytes that caused them. The byte index `i` of
10_state.md R30 is the position in the list. -/
def demodCodes (cfg : Config) (now : Nat) : DS → List Byte → DS × List Event
  | ds, [] => (ds, [])
  | ds, b :: bs =>
    let r := demodByte cfg ds b now
    let q := demodCodes cfg now r.1 bs
    (q.1, r.2.toList ++ q.2)

/-- `DemodPacket(DS, codes, now)` (R100). -/
def demodPacket (cfg : Config) (ds : DS) (codes : Codes) (now : Nat) : DS × List Event :=
  demodCodes cfg now ds codes

end Sys2Proof.Machine
end

