-- ==== Sys2Proof/Machine/Packet.lean ====
section
/-! DEFINITION. The meanings of the PKT64 rows: one inbound packet transaction each (40_packet_codec.md R80-R93). -/

namespace Sys2Proof.Machine

open Sys2Proof

/-- RXD (R93): all seven codes are demodulated, whatever `declLen` says. -/
def execRxd (codes : Codes) (declLen : Byte) (s : State) : Host.Outcome State Fault Refusal :=
  whenPresent s (finishData codes declLen s (demodPacket s.cfg s.ds codes s.now))

/-- CTL_VERSION (R85, R88). -/
def execCtlVersion (dir : Byte) (data : Data4) (s : State) : Host.Outcome State Fault Refusal :=
  whenPresent s (controlPacket dir (.named .version) data s)

/-- CTL_RX_ENABLE (R86, R88): it gates nothing. -/
def execCtlRxEnable (dir : Byte) (data : Data4) (s : State) : Host.Outcome State Fault Refusal :=
  whenPresent s (controlPacket dir (.named .rxEnable) data s)

/-- CTL_RX_DISABLE (R87, R88): it resets nothing. -/
def execCtlRxDisable (dir : Byte) (data : Data4) (s : State) : Host.Outcome State Fault Refusal :=
  whenPresent s (controlPacket dir (.named .rxDisable) data s)

/-- CTL_RX_DATA (R89, R88): its data bytes are not pulse codes. -/
def execCtlRxData (dir : Byte) (data : Data4) (s : State) : Host.Outcome State Fault Refusal :=
  whenPresent s (controlPacket dir (.named .rxData) data s)

/-- CTL_BOF_RX (R90, R88). -/
def execCtlBofRx (dir : Byte) (data : Data4) (s : State) : Host.Outcome State Fault Refusal :=
  whenPresent s (controlPacket dir (.named .bofRx) data s)

/-- CTL_BOF_TX (R91, R88). -/
def execCtlBofTx (dir : Byte) (data : Data4) (s : State) : Host.Outcome State Fault Refusal :=
  whenPresent s (controlPacket dir (.named .bofTx) data s)

/-- CTL_UNKNOWN (R92, R88). -/
def execCtlUnknown (dir v : Byte) (data : Data4) (s : State) : Host.Outcome State Fault Refusal :=
  whenPresent s (controlPacket dir (.unknown v) data s)

end Sys2Proof.Machine
end

