-- ==== Sys2Proof/Machine/Pulse.lean ====
section
/-! DEFINITION. The meanings of the PCODE8 rows: one `DemodByte` each, at the time input of the state
(41_pulse_demodulator.md R101-R122). -/

namespace Sys2Proof.Machine

open Sys2Proof

/-- SKIP (R102). -/
def execSkip (s : State) : Host.Outcome State Fault Refusal :=
  whenPresent s (finishCode s (demodSkip s.ds))

/-- CARRY (R104): the polarity `_sp` is ignored. -/
def execCarry (_sp : Bool) (s : State) : Host.Outcome State Fault Refusal :=
  whenPresent s (finishCode s (demodCarry s.cfg s.ds))

/-- MARK (R105, R109-R120). -/
def execMark (n : Units) (s : State) : Host.Outcome State Fault Refusal :=
  whenPresent s (finishCode s (demodMark s.cfg s.ds n s.now))

/-- SPACE (R105, R109-R122). -/
def execSpace (n : Units) (s : State) : Host.Outcome State Fault Refusal :=
  whenPresent s (finishCode s (demodSpace s.cfg s.ds n s.now))

end Sys2Proof.Machine
end

