-- ==== Sys2Proof/Machine/Dispatch.lean ====
section
/-! DEFINITION. One arm per instruction. -/

namespace Sys2Proof.Machine

open Sys2Proof

def exec (i : Instr) (s : State) : Host.Outcome State Fault Refusal :=
  match i with
  | .rxd codes declLen => Sys2Proof.Machine.execRxd codes declLen s
  | .ctlVersion dir data => Sys2Proof.Machine.execCtlVersion dir data s
  | .ctlRxEnable dir data => Sys2Proof.Machine.execCtlRxEnable dir data s
  | .ctlRxDisable dir data => Sys2Proof.Machine.execCtlRxDisable dir data s
  | .ctlRxData dir data => Sys2Proof.Machine.execCtlRxData dir data s
  | .ctlBofRx dir data => Sys2Proof.Machine.execCtlBofRx dir data s
  | .ctlBofTx dir data => Sys2Proof.Machine.execCtlBofTx dir data s
  | .ctlUnknown dir v data => Sys2Proof.Machine.execCtlUnknown dir v data s
  | .skip => Sys2Proof.Machine.execSkip s
  | .carry sp => Sys2Proof.Machine.execCarry sp s
  | .mark n => Sys2Proof.Machine.execMark n s
  | .space n => Sys2Proof.Machine.execSpace n s
  | .encode dir type data => Sys2Proof.Machine.execEncode dir type data s
  | .getVersion => Sys2Proof.Machine.execGetVersion s
  | .rxEnable => Sys2Proof.Machine.execRxEnable s
  | .rxDisable => Sys2Proof.Machine.execRxDisable s

end Sys2Proof.Machine
end

