-- ==== Sys2Proof/Machine/Fetch.lean ====
section
/-! DEFINITION. Taking the next input: the block has no program counter (10_state.md R30); what it acts on next is what the
host presents next (20_memory.md R50, 60_exceptions.md R168). -/

namespace Sys2Proof.Machine

open Sys2Proof

/-- What the head of the host's stream asks for. -/
inductive Fetched where
  /-- Nothing is presented. -/
  | idle
  /-- The input is dealt with without an instruction. -/
  | done (t : State)
  /-- The instruction, and the state it runs in. -/
  | run (i : Instr) (t : State)
  /-- The machine stops. -/
  | stop (f : Fault)
  deriving DecidableEq, Repr

/-- A length error ends the transaction with its status (40_packet_codec.md R81, R82), on a present block. -/
def fetchRejected (status : Status) (result : Result) (s : State) : Fetched :=
  if s.present then .done (rejectPacket status result s) else .stop .blockAbsent

/-- An inbound packet, its time already sampled (40_packet_codec.md R80). -/
def fetchPacket (buf : List Byte) (s : State) : Fetched :=
  match decodePacket s.cfg buf with
  | .ok i => .run i s
  | .malformed => fetchRejected .malformed .malformed s
  | .short => fetchRejected .short .short s

/-- The head of the stream is taken off it, its `now` is sampled by the time input, and it is decoded. -/
def takeInput (s : State) : Fetched :=
  match s.inputs with
  | [] => .idle
  | .reset :: rest => .done (blockReset { s with inputs := rest })
  | .shutdown :: rest => .done (shutdown { s with inputs := rest })
  | .packet buf now :: rest => fetchPacket buf { s with inputs := rest, now := timeIn s.cfg now }
  | .code b now :: rest => .run (decodeCode s.cfg b) { s with inputs := rest, now := timeIn s.cfg now }
  | .request r :: rest => .run (requestInstr r) { s with inputs := rest }

/-- An item as the host presents it, at a time. -/
def presentItem (now : Nat) : Item → Input
  | .packet buf => .packet buf now
  | .code b => .code b now
  | .request r => .request r

/-- The initialisation sequence as far as the block sees it (70_reset_and_hazards.md R193). -/
def initSequence : List Input := [.reset, .request .getVersion, .request .rxEnable]

/-- The shutdown sequence as far as the block sees it (70_reset_and_hazards.md R194). -/
def shutdownSequence : List Input := [.request .rxDisable, .shutdown]

end Sys2Proof.Machine
end

