-- ==== Sys2Proof/Machine/Step.lean ====
section
/-! DEFINITION. One step: the next input of the host, whole. A packet transaction is one step, so no other transaction sees
an intermediate state (20_memory.md R47). -/

namespace Sys2Proof.Machine

open Sys2Proof

/-- With nothing presented the block waits, unchanged (20_memory.md R49, 70_reset_and_hazards.md R208). -/
def step (s : State) : Host.Outcome State Fault Refusal :=
  match takeInput s with
  | .idle => .next s
  | .done t => .next t
  | .run i t => exec i t
  | .stop f => .fault f

/-- The table word presented next, at the state's own time input, before whatever the host was going to present. -/
def State.withFetchWord (s : State) (nbits w : Nat) : State :=
  { s with inputs := presentItem s.now (tableItem nbits w) :: s.inputs }

end Sys2Proof.Machine
end

