-- ==== Sys2Proof/WellFormed.lean ====
section
/-! DEFINITION. The instructions that an encoding stands for: the side conditions of the opcode table's rows. -/

namespace Sys2Proof

/-- The row's own condition on its operands, for a block with these parameters. RXD: `NCODES` codes, and byte0 or byte1 is
non-zero (30_encoding.md R61, R65). CTL_UNKNOWN: its type byte is none of the six (R70). The pulse codes: the classes before it
in the order of R66 do not take the byte; with the defaults MARK is n = 0..126 and SPACE is n = 1..126 (R103). Every other row
takes every operand. -/
def Instr.wf (cfg : Config) : Instr → Bool
  | .rxd c _ => decide (c.length = cfg.nCodes ∧ (byteAt c 0 ≠ 0#8 ∨ byteAt c 1 ≠ 0#8))
  | .ctlVersion _ _ => true
  | .ctlRxEnable _ _ => true
  | .ctlRxDisable _ _ => true
  | .ctlRxData _ _ => true
  | .ctlBofRx _ _ => true
  | .ctlBofTx _ _ => true
  | .ctlUnknown _ v _ => decide (v ∉ [0x01#8, 0x12#8, 0x14#8, 0x30#8, 0x31#8, 0x32#8])
  | .skip => true
  | .carry s => decide (codeByte s cfg.satUnits ≠ cfg.skipByte)
  | .mark n => decide (n ≠ cfg.satUnits ∧ codeByte false n ≠ cfg.skipByte)
  | .space n => decide (n ≠ cfg.satUnits ∧ codeByte true n ≠ cfg.skipByte)
  | .encode _ _ _ => true
  | .getVersion => true
  | .rxEnable => true
  | .rxDisable => true

end Sys2Proof
end

