-- ==== Sys2Proof/Safety.lean ====
section
/-! DEFINITION. What counts as a legal state and a safe run, in the terms the statements use. -/

namespace Sys2Proof.Machine

open Sys2Proof

/-- The invariants (a), (b), (c) of 10_state.md R27, with the range of `bit_pos` of R23 and the length of R24. -/
structure DS.Inv (cfg : Config) (ds : DS) : Prop where
  idle : ds.receiving = false → ds.bitPos = -1 ∧ ds.bitBuf = []
  bitPosLower : -1 ≤ ds.bitPos
  bitPosUpper : ds.bitPos ≤ cfg.lastPos
  bitBufLength : (ds.bitBuf.length : Int) = (ds.bitPos + 1) / 2
  accCnt : ds.accCnt ≤ 2 ^ cfg.accW - 1

/-- A command event as the block may put it out: a code of `NBITS` bits with its own class, and a time of `TS_W` bits
(42_command_output.md R150). -/
def Event.wf (cfg : Config) (e : Event) : Prop := e.code < 2 ^ cfg.nBits ∧ e.cls = classify e.code ∧ e.t < 2 ^ cfg.tsW

/-- The machine's invariant: parameters the rules make sense for, a legal demodulator state, times of `TS_W` bits
(10_state.md R25, 60_exceptions.md R177), and only well-formed events put out. -/
structure State.Inv (s : State) : Prop where
  cfg : s.cfg.wf = true
  ds : s.ds.Inv s.cfg
  now : s.now < 2 ^ s.cfg.tsW
  lastCmd : ∀ t, s.ds.lastCmd = some t → t < 2 ^ s.cfg.tsW
  events : ∀ e ∈ s.events, e.wf s.cfg

/-- The named states of 10_state.md R28, for frames of `n` data bits; R28 lists those of `n` = 7. -/
inductive NamedState (n : Nat) where
  | idle
  | hspace
  | mark (k : Fin n)
  | space (k : Fin (n - 1))
  | term
  deriving DecidableEq, Repr

/-- The pair (`receiving`, `bit_pos`) of a named state: `mark k` is MARK(2k), `space k` is SPACE(2k+1), TERM is the last
position, 2n − 1 (R28, R6). -/
def NamedState.pair {n : Nat} : NamedState n → Bool × Int
  | .idle => (false, -1)
  | .hspace => (true, -1)
  | .mark k => (true, 2 * (k.val : Int))
  | .space k => (true, 2 * (k.val : Int) + 1)
  | .term => (true, 2 * (n : Int) - 1)

/-- The time an input carries, if it carries one. -/
def Input.time : Input → Option Nat
  | .reset => none
  | .shutdown => none
  | .packet _ now => some now
  | .code _ now => some now
  | .request _ => none

/-- The host's time duty (70_reset_and_hazards.md R209): from `t` on, the times the block's input takes never decrease. -/
def TimesFrom (cfg : Config) : Nat → List Input → Prop
  | _, [] => True
  | t, i :: rest =>
    match i.time with
    | none => TimesFrom cfg t rest
    | some now => t ≤ timeIn cfg now ∧ TimesFrom cfg (timeIn cfg now) rest

/-- What the time duty buys: the last command lies in the past, and a frame in progress began more than `DEBOUNCE_US`
after it. -/
structure State.Spaced (s : State) : Prop where
  duty : TimesFrom s.cfg s.now s.inputs
  past : ∀ t, s.ds.lastCmd = some t → t ≤ s.now
  apart : ∀ t, s.ds.lastCmd = some t → s.ds.receiving = true → t + s.cfg.debounce < s.now

/-- Pulse codes run one after the other as instructions, at one time input. -/
def execCodes (s : State) : List Byte → Host.Outcome State Fault Refusal
  | [] => .next s
  | b :: bs =>
    match exec (decodeCode s.cfg b) s with
    | .next t => execCodes t bs
    | .fault f => .fault f
    | .refused r => .refused r

/-- One data bit of a frame: its value, the unit count of its mark, and that of the space after it. -/
structure BitSlot where
  bit : Bool
  mark : Units
  space : Units
  deriving DecidableEq, Repr

/-- The mark has the length of its bit: 1200 ± 100 for 1, 600 ± 100 for 0 (41_pulse_demodulator.md R115, R116). -/
def BitSlot.markFits (cfg : Config) (x : BitSlot) : Prop :=
  if x.bit then inPulseWindow cfg (elapsed cfg x.mark 0) = true else inSpaceWindow cfg (elapsed cfg x.mark 0) = true

/-- A frame of 41_pulse_demodulator.md R141: header mark, header space, then for each data bit its mark and the space after
it, the last space being the terminal one. -/
def frameBytes (header headerSpace : Units) (slots : List BitSlot) : List Byte :=
  codeByte false header :: codeByte true headerSpace ::
    slots.flatMap fun x => [codeByte false x.mark, codeByte true x.space]

/-- The command code of a frame: the first data bit is the least significant (41_pulse_demodulator.md R124). -/
def frameCode (slots : List BitSlot) : Nat := parse (slots.map BitSlot.bit).reverse

/-- A well-timed frame of `NBITS` data bits. -/
structure FrameFits (cfg : Config) (header headerSpace : Units) (slots : List BitSlot) : Prop where
  length : slots.length = cfg.nBits
  header : inHeaderWindow cfg (elapsed cfg header 0) = true
  headerSpace : inSpaceWindow cfg (elapsed cfg headerSpace 0) = true
  marks : ∀ x ∈ slots, x.markFits cfg
  spaces : ∀ x ∈ slots.dropLast, inSpaceWindow cfg (elapsed cfg x.space 0) = true

/-- A frame as a real transmission ends it (R121): carries, of either polarity, before the terminal space. -/
def frameWithGap (cfg : Config) (header headerSpace : Units) (slots : List BitSlot) (carries : List Bool) : List Byte :=
  (frameBytes header headerSpace slots).dropLast ++ carries.map (codeByte · cfg.satUnits) ++
    (frameBytes header headerSpace slots).getLast?.toList

/-- A receiver-data packet as the host presents it (30_encoding.md R61). -/
structure DataPacket where
  codes : Codes
  declLen : Byte
  now : Nat
  deriving DecidableEq, Repr

/-- The packet transaction: the codes, then the declared length. -/
def DataPacket.input (p : DataPacket) : Input := .packet (p.codes ++ [p.declLen]) p.now

/-- The codes of a sequence of packets that are not skips, in order. -/
def liveCodes (cfg : Config) (ps : List DataPacket) : List Byte := (ps.flatMap DataPacket.codes).filter (· != cfg.skipByte)

/-- The codes presented one by one, the k-th at `time k`. -/
def presentCodes (time : Nat → Nat) (bytes : List Byte) : List Input :=
  bytes.zipIdx.map fun x => .code x.1 (time x.2)

end Sys2Proof.Machine
end

