-- ==== Sys2Proof/Certificates/Slice0/Obligations.lean ====
section
/-! DEFINITION. The statements for the provers. Rule numbers are those of spec/; a rule the spec marks "[derived: ..]" or a
choice of the model's own (notes/assumptions) is named as such in the docstring and not cited as a stated rule. The model's
interface shows in all of them and is no rule of the spec: the host's stream `inputs` (notes/assumptions/1), the record
`outputs` that each transaction adds one entry to (2), the time input as a field (3), the flag `present` and its fault (4),
a pulse code presented on its own, with its entry `.code` (5), the step that changes nothing when nothing is presented (9). -/

open Sys2Proof Sys2Proof.Machine

/-! ## Reset, presence, waiting -/

/-- R190, with the values of the spec's decisions D4, D8, D20. A block reset of any state sets every element of `DS` to its reset value, puts nothing out, and leaves the
block idle with the debounce open, waiting for the first transaction; the initial state holds the same values. That the reset
block is `present`, and that waiting is a step without change, are the model's form (notes/assumptions/4 and 9). -/
def Obligations.BlockResetSetsEveryElement : Prop :=
  ∀ (s : State) (rest : List Input), s.inputs = .reset :: rest →
    ∃ t, step s = .next t ∧
      t.ds.accCnt = 0 ∧ t.ds.receiving = false ∧ t.ds.bitPos = -1 ∧ t.ds.bitBuf = [] ∧ t.ds.lastCmd = none ∧
      t.outputs = s.outputs ∧ t.present = true ∧ t.inputs = rest ∧ t.cfg = s.cfg ∧ t.now = s.now ∧
      (∀ now, debounceOk t.cfg t.ds.lastCmd now = true) ∧
      (rest = [] → step t = .next t) ∧ State.reset.ds = t.ds

/-- Derived from R27 and R209; the reset values that the spec's decisions D4, D8, D20 give. -/
def Obligations.ResetMeetsTheInvariants : Prop :=
  State.reset.Inv ∧ State.reset.Spaced ∧ State.reset.cfg.wf = true

/-- Derived from R191 and R184. Shutdown emits nothing and leaves the block absent. That the discarded `DS` reads as its reset
value, and that a transaction presented to the absent block is a fault, are the model's choices (notes/assumptions/4); a
block reset brings the block back. -/
def Obligations.ShutdownDiscardsAndStopsTransactions : Prop :=
  (∀ (s : State) (rest : List Input), s.inputs = .shutdown :: rest →
    step s = .next { s with inputs := rest, present := false, ds := DS.reset }) ∧
  (∀ (s : State) (x : Input) (rest : List Input), s.present = false → s.inputs = x :: rest →
    x ≠ .reset → x ≠ .shutdown → step s = .fault .blockAbsent) ∧
  (∀ (s : State) (rest : List Input), s.present = false → s.inputs = .reset :: rest →
    step s = .next { s with inputs := rest, present := true, ds := DS.reset })

/-- Derived from R211 and R94. On a present block every step completes, and every packet transaction ends with one status
(numbered as R167 and the spec's decision D16 have it), and a request with eight bytes. Two clauses are the model's own: that a
pulse code on its own ends with its event or none (notes/assumptions/5, DESIGN CHOICE), and that a step with nothing presented
changes nothing (notes/assumptions/9, DEDUCED). -/
def Obligations.PresentBlockAlwaysCompletes : Prop :=
  ∀ (s : State), s.present = true →
    ∃ t, step s = .next t ∧
      (∀ buf now rest, s.inputs = .packet buf now :: rest →
        ∃ st r evs, t.outputs = s.outputs ++ [.packet st r evs] ∧
          ((st = .control ∧ statusCode st = 0) ∨ (st = .data ∧ statusCode st = 1) ∨
           (st = .malformed ∧ statusCode st = 2) ∨ (st = .short ∧ statusCode st = 3))) ∧
      (∀ q rest, s.inputs = .request q :: rest →
        ∃ bytes, t.outputs = s.outputs ++ [.encoded bytes] ∧ bytes.length = 8) ∧
      (∀ b now rest, s.inputs = .code b now :: rest → ∃ ev, t.outputs = s.outputs ++ [.code ev]) ∧
      (s.inputs = [] → t = s)

/-- Derived from R193, R194, R77: what the block sees of the two sequences. -/
def Obligations.InitAndShutdownSequences : Prop :=
  (∀ (s : State) (rest : List Input), s.inputs = initSequence ++ rest →
    ∃ t, Host.Core.run Sys2Proof.core 3 s = .next t ∧ t.ds = DS.reset ∧ t.present = true ∧ t.inputs = rest ∧
      t.outputs = s.outputs ++ [.encoded [0x00#8, 0x00#8, 0xCD#8, 0x01#8, 0x00#8, 0x00#8, 0x00#8, 0x00#8],
        .encoded [0x00#8, 0x00#8, 0xCD#8, 0x12#8, 0x00#8, 0x00#8, 0x00#8, 0x00#8]]) ∧
  (∀ (s : State) (rest : List Input), s.present = true → s.inputs = shutdownSequence ++ rest →
    ∃ t, Host.Core.run Sys2Proof.core 2 s = .next t ∧ t.present = false ∧ t.inputs = rest ∧
      t.outputs = s.outputs ++ [.encoded [0x00#8, 0x00#8, 0xCD#8, 0x14#8, 0x00#8, 0x00#8, 0x00#8, 0x00#8]])

/-! ## Decoding and encoding -/

/-- Every well-formed instruction of every family is read back from its encoding, with every operand. -/
def Obligations.DecodeOfEncodeIsTheInstruction : Prop :=
  ∀ (cfg : Config) (i : Instr), cfg.wf = true → i.wf cfg = true → decode cfg (encode cfg i) = .ok i

/-- Every packet of `PKT_LEN` bytes, every pulse code and every request is the encoding of the well-formed instruction it decodes
to: no bit is dropped and no such input is illegal. -/
def Obligations.EncodeOfDecodeIsTheInput : Prop :=
  ∀ (cfg : Config) (x : Item), cfg.wf = true → (∀ buf, x = .packet buf → buf.length = cfg.pktLen) →
    ∃ i, decode cfg x = .ok i ∧ i.wf cfg = true ∧ encode cfg i = x

/-- Words written out from the spec: 40_packet_codec.md's examples, 95_test_vectors.md L2.1 and L2.7, R77. -/
def Obligations.SpecWordsDecodeRight : Prop :=
  decodeTableWord 64 0x709B379B1B9B3707 =
    some (.rxd [0x70#8, 0x9B#8, 0x37#8, 0x9B#8, 0x1B#8, 0x9B#8, 0x37#8] 0x07#8) ∧
  decodeTableWord 64 0x0000DC0102000000 = some (.ctlVersion 0xDC#8 ⟨2#8, 0#8, 0#8, 0#8⟩) ∧
  decodeTableWord 64 0x0000CD1400000000 = some (.ctlRxDisable 0xCD#8 .zero) ∧
  decodeTableWord 64 0x0000DC3012345678 = some (.ctlRxData 0xDC#8 ⟨0x12#8, 0x34#8, 0x56#8, 0x78#8⟩) ∧
  decodeTableWord 64 0x0000CD7E01020304 = some (.ctlUnknown 0xCD#8 0x7E#8 ⟨1#8, 2#8, 3#8, 4#8⟩) ∧
  decodeTableWord 8 0x80 = some .skip ∧
  decodeTableWord 8 0x7F = some (.carry false) ∧
  decodeTableWord 8 0xFF = some (.carry true) ∧
  decodeTableWord 8 0x70 = some (.mark 112#7) ∧
  decodeTableWord 8 0x9B = some (.space 27#7) ∧
  decode Config.default (.request .getVersion) = .ok .getVersion

/-- R65 (the spec's decision D27: applied literally): an 8-byte packet is CTL, one of the seven CTL rows with the operands of
R69, if its first two bytes are zero, and RXD with the operands of R69 if not; the type byte does not select the format; and the
condition in the 64-bit view. -/
def Obligations.ControlIffFirstTwoBytesZero : Prop :=
  ∀ (cfg : Config) (b0 b1 b2 b3 b4 b5 b6 b7 : Byte), cfg.wf = true →
    (b0 = 0#8 ∧ b1 = 0#8 →
      decodePacket cfg [b0, b1, b2, b3, b4, b5, b6, b7] = .ok
        (if b3 = 0x01#8 then .ctlVersion b2 ⟨b4, b5, b6, b7⟩
          else if b3 = 0x12#8 then .ctlRxEnable b2 ⟨b4, b5, b6, b7⟩
          else if b3 = 0x14#8 then .ctlRxDisable b2 ⟨b4, b5, b6, b7⟩
          else if b3 = 0x30#8 then .ctlRxData b2 ⟨b4, b5, b6, b7⟩
          else if b3 = 0x31#8 then .ctlBofRx b2 ⟨b4, b5, b6, b7⟩
          else if b3 = 0x32#8 then .ctlBofTx b2 ⟨b4, b5, b6, b7⟩
          else .ctlUnknown b2 b3 ⟨b4, b5, b6, b7⟩)) ∧
    (¬(b0 = 0#8 ∧ b1 = 0#8) →
      decodePacket cfg [b0, b1, b2, b3, b4, b5, b6, b7] = .ok (.rxd [b0, b1, b2, b3, b4, b5, b6] b7)) ∧
    ((b0 ++ b1 ++ b2 ++ b3 ++ b4 ++ b5 ++ b6 ++ b7 : BitVec 64) &&& 0xFFFF000000000000#64 = 0#64 ↔
      b0 = 0#8 ∧ b1 = 0#8)

/-- R63, R64: every value of the direction and the type byte, the unnamed ones passed through (the spec's decision D12). -/
def Obligations.DirectionAndTypeOfEveryByte : Prop :=
  ∀ v : Byte,
    (dirOf v = .named .h2d ↔ v = 0xCD#8) ∧ (dirOf v = .named .d2h ↔ v = 0xDC#8) ∧
    (v ≠ 0xCD#8 → v ≠ 0xDC#8 → dirOf v = .unknown v) ∧
    (typeOf v = .named .version ↔ v = 0x01#8) ∧ (typeOf v = .named .rxEnable ↔ v = 0x12#8) ∧
    (typeOf v = .named .rxDisable ↔ v = 0x14#8) ∧ (typeOf v = .named .rxData ↔ v = 0x30#8) ∧
    (typeOf v = .named .bofRx ↔ v = 0x31#8) ∧ (typeOf v = .named .bofTx ↔ v = 0x32#8) ∧
    (v ∉ [0x01#8, 0x12#8, 0x14#8, 0x30#8, 0x31#8, 0x32#8] → typeOf v = .unknown v)

/-- R66: the class of each of the 256 bytes, from its number. -/
def Obligations.EveryCodeByteHasOneClass : Prop :=
  ∀ (cfg : Config) (b : Byte), cfg.skipByte = 0x80#8 → cfg.satUnits = 127#7 →
    (b.toNat = 128 → classOf cfg b = .skip) ∧
    (b.toNat = 127 → classOf cfg b = .carry false) ∧ (b.toNat = 255 → classOf cfg b = .carry true) ∧
    (b.toNat < 127 → classOf cfg b = .mark (BitVec.ofNat 7 b.toNat)) ∧
    (128 < b.toNat → b.toNat < 255 → classOf cfg b = .space (BitVec.ofNat 7 (b.toNat - 128)))

/-! ## A step runs the decoded instruction -/

/-- When the head of the host's stream decodes to an instruction, the step is `exec` of it, in the state with the input taken
off the stream and its time sampled. -/
def Obligations.StepRunsTheDecodedInstruction : Prop :=
  ∀ (s : State) (rest : List Input) (now : Nat),
    (∀ buf i, s.inputs = .packet buf now :: rest → decodePacket s.cfg buf = .ok i →
      step s = exec i { s with inputs := rest, now := timeIn s.cfg now }) ∧
    (∀ b, s.inputs = .code b now :: rest →
      step s = exec (decodeCode s.cfg b) { s with inputs := rest, now := timeIn s.cfg now }) ∧
    (∀ q, s.inputs = .request q :: rest → step s = exec (requestInstr q) { s with inputs := rest })

/-- A table word placed for fetching is what the next step runs, in the very state it was placed in, on a block with the
formats the table is written for. -/
def Obligations.PlacedTableWordRunsNext : Prop :=
  ∀ (s : State) (nbits w : Nat) (i : Instr), s.cfg.wf = true → s.cfg.skipByte = 0x80#8 → s.cfg.satUnits = 127#7 →
    s.now < 2 ^ s.cfg.tsW → decodeTableWord nbits w = some i →
    step (s.withFetchWord nbits w) = exec i s

/-! ## The packet codec -/

/-- R81, R161: a buffer of more than `PKT_LEN` = 8 bytes, whatever it holds and whatever the state. -/
def Obligations.LongBufferIsMalformed : Prop :=
  ∀ (s : State) (buf : List Byte) (now : Nat) (rest : List Input), s.present = true →
    s.inputs = .packet buf now :: rest → s.cfg.pktLen < buf.length →
    step s = .next { s with inputs := rest, now := timeIn s.cfg now,
                            outputs := s.outputs ++ [.packet .malformed .malformed []] } ∧
      statusCode .malformed = 2 ∧ Config.default.pktLen = 8

/-- R82, R162 (the spec's decision D10): a buffer of fewer than `PKT_LEN` = 8 bytes under both policies. -/
def Obligations.ShortBufferIsRejectedOrPadded : Prop :=
  ∀ (s : State) (buf : List Byte) (now : Nat) (rest : List Input), s.present = true → s.cfg.wf = true →
    s.inputs = .packet buf now :: rest → buf.length < 8 →
    (s.cfg.shortPolicy = .rejectShort →
      step s = .next { s with inputs := rest, now := timeIn s.cfg now,
                              outputs := s.outputs ++ [.packet .short .short []] } ∧
        statusCode .short = 3) ∧
    (s.cfg.shortPolicy = .padZero →
      step s = step { s with inputs := .packet (buf ++ List.replicate (8 - buf.length) 0x00#8) now :: rest } ∧
      ((∃ codes len, decodePacket s.cfg buf = .ok (.rxd codes len)) ↔
        ∃ k, k < 2 ∧ buf.getD k 0x00#8 ≠ 0x00#8))

/-- R85 to R87 and R89 to R92 with R88 (the spec's decisions D12, D14, D15): on a present block each CTL row completes; it puts out CONTROL with its direction,
type and data, no event, and changes nothing else, `DS` included; and its bytes decode to it. -/
def Obligations.ControlPacketsCompleteAndKeepState : Prop :=
  ∀ (s : State) (dir v : Byte) (d : Data4) (cfg : Config), s.present = true → cfg.wf = true →
    (exec (.ctlVersion dir d) s =
        .next { s with outputs := s.outputs ++ [.packet .control (.control (dirOf dir) (.named .version) d) []] } ∧
      decodePacket cfg [0x00#8, 0x00#8, dir, 0x01#8, d.d0, d.d1, d.d2, d.d3] = .ok (.ctlVersion dir d)) ∧
    (exec (.ctlRxEnable dir d) s =
        .next { s with outputs := s.outputs ++ [.packet .control (.control (dirOf dir) (.named .rxEnable) d) []] } ∧
      decodePacket cfg [0x00#8, 0x00#8, dir, 0x12#8, d.d0, d.d1, d.d2, d.d3] = .ok (.ctlRxEnable dir d)) ∧
    (exec (.ctlRxDisable dir d) s =
        .next { s with outputs := s.outputs ++ [.packet .control (.control (dirOf dir) (.named .rxDisable) d) []] } ∧
      decodePacket cfg [0x00#8, 0x00#8, dir, 0x14#8, d.d0, d.d1, d.d2, d.d3] = .ok (.ctlRxDisable dir d)) ∧
    (exec (.ctlRxData dir d) s =
        .next { s with outputs := s.outputs ++ [.packet .control (.control (dirOf dir) (.named .rxData) d) []] } ∧
      decodePacket cfg [0x00#8, 0x00#8, dir, 0x30#8, d.d0, d.d1, d.d2, d.d3] = .ok (.ctlRxData dir d)) ∧
    (exec (.ctlBofRx dir d) s =
        .next { s with outputs := s.outputs ++ [.packet .control (.control (dirOf dir) (.named .bofRx) d) []] } ∧
      decodePacket cfg [0x00#8, 0x00#8, dir, 0x31#8, d.d0, d.d1, d.d2, d.d3] = .ok (.ctlBofRx dir d)) ∧
    (exec (.ctlBofTx dir d) s =
        .next { s with outputs := s.outputs ++ [.packet .control (.control (dirOf dir) (.named .bofTx) d) []] } ∧
      decodePacket cfg [0x00#8, 0x00#8, dir, 0x32#8, d.d0, d.d1, d.d2, d.d3] = .ok (.ctlBofTx dir d)) ∧
    (exec (.ctlUnknown dir v d) s =
        .next { s with outputs := s.outputs ++ [.packet .control (.control (dirOf dir) (.unknown v) d) []] } ∧
      (v ∉ [0x01#8, 0x12#8, 0x14#8, 0x30#8, 0x31#8, 0x32#8] →
        decodePacket cfg [0x00#8, 0x00#8, dir, v, d.d0, d.d1, d.d2, d.d3] = .ok (.ctlUnknown dir v d)))

/-- R84: a packet whose first two bytes are zero, as a transaction: its fields read as the rule's `DirOf` and `TypeOf`, here
written out, read them; nothing is rejected (the spec's decision D12). -/
def Obligations.ControlTransactionPassesFieldsThrough : Prop :=
  ∀ (s : State) (dir ty : Byte) (d : Data4) (now : Nat) (rest : List Input), s.present = true → s.cfg.wf = true →
    s.inputs = .packet [0x00#8, 0x00#8, dir, ty, d.d0, d.d1, d.d2, d.d3] now :: rest →
    step s = .next { s with inputs := rest, now := timeIn s.cfg now, outputs := s.outputs ++ [.packet .control
      (.control
        (if dir = 0xCD#8 then .named .h2d else if dir = 0xDC#8 then .named .d2h else .unknown dir)
        (if ty = 0x01#8 then .named .version else if ty = 0x12#8 then .named .rxEnable
          else if ty = 0x14#8 then .named .rxDisable else if ty = 0x30#8 then .named .rxData
          else if ty = 0x31#8 then .named .bofRx else if ty = 0x32#8 then .named .bofTx else .unknown ty)
        d) []] }

/-- R94 (the spec's decision D26 fixes the operands): an encode transaction puts out the eight bytes and changes nothing else;
the default data bytes are 0x00. -/
def Obligations.EncodeProducesEightBytes : Prop :=
  ∀ (s : State) (dir : NamedDir) (ty : NamedType) (d : Data4), s.present = true →
    exec (.encode dir ty d) s = .next { s with outputs := s.outputs ++ [.encoded
      [0x00#8, 0x00#8, (match dir with | .h2d => 0xCD#8 | .d2h => 0xDC#8),
        (match ty with
          | .version => 0x01#8 | .rxEnable => 0x12#8 | .rxDisable => 0x14#8
          | .rxData => 0x30#8 | .bofRx => 0x31#8 | .bofTx => 0x32#8),
        d.d0, d.d1, d.d2, d.d3]] } ∧
    Data4.zero = ⟨0x00#8, 0x00#8, 0x00#8, 0x00#8⟩

/-- R77: the three pseudo-instructions are encode requests with zero data, and their bytes. -/
def Obligations.PseudoRequestsExpandToEncode : Prop :=
  ∀ (s : State), s.present = true →
    (exec .getVersion s = exec (.encode .h2d .version .zero) s ∧
      exec .getVersion s = .next { s with outputs := s.outputs ++
        [.encoded [0x00#8, 0x00#8, 0xCD#8, 0x01#8, 0x00#8, 0x00#8, 0x00#8, 0x00#8]] }) ∧
    (exec .rxEnable s = exec (.encode .h2d .rxEnable .zero) s ∧
      exec .rxEnable s = .next { s with outputs := s.outputs ++
        [.encoded [0x00#8, 0x00#8, 0xCD#8, 0x12#8, 0x00#8, 0x00#8, 0x00#8, 0x00#8]] }) ∧
    (exec .rxDisable s = exec (.encode .h2d .rxDisable .zero) s ∧
      exec .rxDisable s = .next { s with outputs := s.outputs ++
        [.encoded [0x00#8, 0x00#8, 0xCD#8, 0x14#8, 0x00#8, 0x00#8, 0x00#8, 0x00#8]] })

/-- Derived from R95: what an encode transaction puts out, presented back as a packet, gives the same direction, type and
data, and leaves `DS` as it was. -/
def Obligations.RoundTripThroughTheBlock : Prop :=
  ∀ (s : State) (dir : NamedDir) (ty : NamedType) (d : Data4) (bytes : List Byte) (now : Nat) (t : State)
    (rest : List Input), s.cfg.wf = true →
    exec (.encode dir ty d) s = .next t → t.outputs = s.outputs ++ [.encoded bytes] →
    ∃ u, step { t with inputs := .packet bytes now :: rest } = .next u ∧
      u.outputs = t.outputs ++ [.packet .control (.control (.named dir) (.named ty) d) []] ∧ u.ds = s.ds

/-- R93: on a present block RXD completes; all seven codes are demodulated at the transaction's time, whatever the declared
length says (the spec's decision D13); DATA is put out with the codes, the length and the events; nothing else changes. -/
def Obligations.ReceiverDataDemodulatesAllSevenCodes : Prop :=
  ∀ (s : State) (codes : Codes) (len : Byte), s.present = true →
    exec (.rxd codes len) s =
      .next { s with ds := (demodPacket s.cfg s.ds codes s.now).1,
                     outputs := s.outputs ++ [.packet .data (.data codes len) (demodPacket s.cfg s.ds codes s.now).2] } ∧
    (∀ t, exec (.rxd codes len) s = .next t → ∀ len', ∃ t', exec (.rxd codes len') s = .next t' ∧
      t'.ds = t.ds ∧ t'.events = t.events)

/-- R100: a receiver-data packet does to `DS` and to the event output what its codes (seven, `NCODES`) do one after the other, in
increasing byte order and with the same time (the spec's decision D6). -/
def Obligations.PacketEqualsItsSevenCodesInOrder : Prop :=
  ∀ (s : State) (codes : Codes) (len : Byte), s.present = true →
    ∃ t u, exec (.rxd codes len) s = .next t ∧
      execCodes s codes = .next u ∧
      t.ds = u.ds ∧ t.events = u.events ∧ t.now = s.now ∧ u.now = s.now

/-! ## The pulse demodulator: the code classes -/

/-- Derived from R102 and R66 (R102 is marked there as derived from R66): the byte 0x80, and no other, changes nothing in any state. -/
def Obligations.SkipChangesNothing : Prop :=
  (∀ (cfg : Config) (b : Byte), decodeCode cfg b = .skip ↔ b = cfg.skipByte) ∧ Config.default.skipByte = 0x80#8 ∧
  (∀ (s : State), s.present = true → exec .skip s = .next { s with outputs := s.outputs ++ [.code none] })

/-- R104: the bytes 0x7F and 0xFF, and no others, add one to the saturating counter, whatever the polarity, and change nothing
else in any state; the 16-bit counter stays at 65535 (the spec's decision D4). -/
def Obligations.CarryCountsAndSaturates : Prop :=
  (∀ (cfg : Config) (b : Byte), cfg.skipByte = 0x80#8 → cfg.satUnits = 127#7 →
    ((∃ sp, decodeCode cfg b = .carry sp) ↔ b = 0x7F#8 ∨ b = 0xFF#8)) ∧
  (∀ (s : State) (sp : Bool), s.present = true →
    exec (.carry sp) s = .next { s with ds := { s.ds with accCnt := min (s.ds.accCnt + 1) (2 ^ s.cfg.accW - 1) },
                                        outputs := s.outputs ++ [.code none] }) ∧
  (∀ (s t : State) (sp : Bool), s.cfg = Config.default → s.ds.accCnt = 65535 → exec (.carry sp) s = .next t →
    t.ds.accCnt = 65535)

/-- R105: the elapsed duration is the sum of two exact ceilings (the spec's decision D3), with the default numbers as the rule writes them; and
every evaluated code of a present block completes with the accumulator cleared. -/
def Obligations.ElapsedIsTheSumOfTwoExactCeilings : Prop :=
  (∀ (cfg : Config) (n : Units) (acc : Nat), 0 < cfg.unitDen →
    (elapsed cfg n acc : Int) =
      ⌈((n.toNat : ℚ) + 1) * ((cfg.unitNum : ℚ) / cfg.unitDen)⌉ +
      ⌈(acc : ℚ) * cfg.carryUnits * ((cfg.unitNum : ℚ) / cfg.unitDen)⌉) ∧
  (∀ (n : Units) (acc : Nat),
    elapsed Config.default n acc = ((n.toNat + 1) * 2133 + 99) / 100 + (acc * 273024 + 99) / 100) ∧
  (∀ (s : State) (n : Units), s.present = true →
    (∃ t, exec (.mark n) s = .next t ∧ t.ds.accCnt = 0) ∧ (∃ t, exec (.space n) s = .next t ∧ t.ds.accCnt = 0))

/-- R106: the tolerance over the integers, inclusive at both ends, and the three windows of the defaults. -/
def Obligations.ToleranceWindowsAreInclusive : Prop :=
  (∀ (cfg : Config) (e ref : Nat), inTol cfg e ref = true ↔ |(e : Int) - (ref : Int)| ≤ (cfg.tol : Int)) ∧
  (∀ e : Nat,
    (inSpaceWindow Config.default e = true ↔ 500 ≤ e ∧ e ≤ 700) ∧
    (inPulseWindow Config.default e = true ↔ 1100 ≤ e ∧ e ≤ 1300) ∧
    (inHeaderWindow Config.default e = true ↔ 2300 ≤ e ∧ e ≤ 2500))

/-- Derived from R107: the windows in unit counts, for the default unit and for 64/3. -/
def Obligations.WindowRangesInUnitCounts : Prop :=
  ∀ (cfg : Config), cfg = Config.default ∨ cfg = { Config.default with unitNum := 64, unitDen := 3 } →
    ∀ n : Units, n ≠ 127#7 →
      (inSpaceWindow cfg (elapsed cfg n 0) = true ↔ 23 ≤ n.toNat ∧ n.toNat ≤ 31) ∧
      (inPulseWindow cfg (elapsed cfg n 0) = true ↔ 51 ≤ n.toNat ∧ n.toNat ≤ 59) ∧
      (inHeaderWindow cfg (elapsed cfg n 0) = true ↔ 107 ≤ n.toNat ∧ n.toNat ≤ 116)

/-- Derived from R108 and R133: after a carry no window matches, and an evaluated code sees no more of the accumulator than
whether it is zero, for every setting where the header window is the longest and a carry exceeds it; the defaults are one. -/
def Obligations.CarryPutsEveryCodeOutsideTheWindows : Prop :=
  (∀ (cfg : Config), cfg.tSpace ≤ cfg.tHeader → cfg.tPulse ≤ cfg.tHeader →
    cfg.tHeader + cfg.tol < unitsTime cfg 0#7 + carryTime cfg 1 →
    (∀ (n : Units) (a : Nat), 1 ≤ a →
      inSpaceWindow cfg (elapsed cfg n a) = false ∧ inPulseWindow cfg (elapsed cfg n a) = false ∧
      inHeaderWindow cfg (elapsed cfg n a) = false) ∧
    (∀ (s : State) (n : Units) (a b : Nat) (i : Instr), s.cfg = cfg → s.present = true → 1 ≤ a → 1 ≤ b →
      i = .mark n ∨ i = .space n →
      exec i { s with ds := { s.ds with accCnt := a } } = exec i { s with ds := { s.ds with accCnt := b } })) ∧
  unitsTime Config.default 0#7 + carryTime Config.default 1 = 2753

/-- Derived from R72 and R102: skips anywhere in a sequence of codes can be taken out without changing what it does. -/
def Obligations.SkipsAreTransparentInASequence : Prop :=
  ∀ (cfg : Config) (now : Nat) (ds : DS) (bytes : List Byte),
    demodCodes cfg now ds bytes = demodCodes cfg now ds (bytes.filter (fun b => b != cfg.skipByte))

/-! ## The pulse demodulator: the state rules -/

/-- R110, R111: in IDLE a mark is a header exactly when the debounce is open (strictly more than DEBOUNCE_US, as a signed
difference, or no command yet) and its duration is in the header window; otherwise the state stays IDLE
(the spec's decisions D7, D8). -/
def Obligations.IdleMarkIsHeaderIffDebouncedAndTimed : Prop :=
  ∀ (s : State) (n : Units), s.present = true → s.ds.receiving = false →
    (((∀ l, s.ds.lastCmd = some l → (s.cfg.debounce : Int) < (s.now : Int) - (l : Int)) ∧
        |(elapsed s.cfg n s.ds.accCnt : Int) - (s.cfg.tHeader : Int)| ≤ (s.cfg.tol : Int)) →
      exec (.mark n) s = .next { s with ds := { s.ds with accCnt := 0, receiving := true, bitPos := -1 },
                                        outputs := s.outputs ++ [.code none] }) ∧
    (¬((∀ l, s.ds.lastCmd = some l → (s.cfg.debounce : Int) < (s.now : Int) - (l : Int)) ∧
        |(elapsed s.cfg n s.ds.accCnt : Int) - (s.cfg.tHeader : Int)| ≤ (s.cfg.tol : Int)) →
      exec (.mark n) s = .next { s with ds := { s.ds with accCnt := 0 }, outputs := s.outputs ++ [.code none] })

/-- Derived from R112: in IDLE a space of any length, a header's included, only clears the accumulator. -/
def Obligations.IdleSpaceOnlyClearsAccumulator : Prop :=
  ∀ (s : State) (n : Units), s.present = true → s.ds.receiving = false →
    exec (.space n) s = .next { s with ds := { s.ds with accCnt := 0 }, outputs := s.outputs ++ [.code none] }

/-- R113: in HSPACE a space in the 600 ± 100 window advances to MARK0. -/
def Obligations.HeaderSpaceAdvancesToMarkZero : Prop :=
  ∀ (s : State) (n : Units), s.present = true → s.ds.receiving = true → s.ds.bitPos = -1 →
    |(elapsed s.cfg n s.ds.accCnt : Int) - (s.cfg.tSpace : Int)| ≤ (s.cfg.tol : Int) →
    exec (.space n) s = .next { s with ds := { s.ds with accCnt := 0, bitPos := 0 },
                                       outputs := s.outputs ++ [.code none] }

/-- Derived from R114 (marked there as derived from R109): in HSPACE any mark, a second header included, and any other space
reset to IDLE. -/
def Obligations.HeaderSpaceOtherwiseResets : Prop :=
  ∀ (s : State) (n : Units), s.present = true → s.ds.receiving = true → s.ds.bitPos = -1 →
    (exec (.mark n) s = .next { s with ds := { DS.reset with lastCmd := s.ds.lastCmd },
                                       outputs := s.outputs ++ [.code none] }) ∧
    (¬|(elapsed s.cfg n s.ds.accCnt : Int) - (s.cfg.tSpace : Int)| ≤ (s.cfg.tol : Int) →
      exec (.space n) s = .next { s with ds := { DS.reset with lastCmd := s.ds.lastCmd },
                                         outputs := s.outputs ++ [.code none] })

/-- R115, R116, R117: in MARKk a mark near 1200 records 1, a mark near 600 records 0, both at the front of the buffer, and
anything else resets to IDLE. -/
def Obligations.DataMarkRecordsItsBitOrResets : Prop :=
  ∀ (s : State) (n : Units), s.present = true → s.ds.receiving = true →
    0 ≤ s.ds.bitPos → s.ds.bitPos ≤ s.cfg.lastPos → s.ds.bitPos % 2 = 0 →
    (inTol s.cfg (elapsed s.cfg n s.ds.accCnt) s.cfg.tPulse = true →
      exec (.mark n) s = .next { s with ds := { s.ds with accCnt := 0, bitBuf := true :: s.ds.bitBuf,
                                                          bitPos := s.ds.bitPos + 1 },
                                        outputs := s.outputs ++ [.code none] }) ∧
    (inTol s.cfg (elapsed s.cfg n s.ds.accCnt) s.cfg.tPulse = false →
      inTol s.cfg (elapsed s.cfg n s.ds.accCnt) s.cfg.tSpace = true →
      exec (.mark n) s = .next { s with ds := { s.ds with accCnt := 0, bitBuf := false :: s.ds.bitBuf,
                                                          bitPos := s.ds.bitPos + 1 },
                                        outputs := s.outputs ++ [.code none] }) ∧
    (inTol s.cfg (elapsed s.cfg n s.ds.accCnt) s.cfg.tPulse = false →
      inTol s.cfg (elapsed s.cfg n s.ds.accCnt) s.cfg.tSpace = false →
      exec (.mark n) s = .next { s with ds := { DS.reset with lastCmd := s.ds.lastCmd },
                                        outputs := s.outputs ++ [.code none] }) ∧
    exec (.space n) s = .next { s with ds := { DS.reset with lastCmd := s.ds.lastCmd },
                                       outputs := s.outputs ++ [.code none] }

/-- R118, R119: in SPACEk a space near 600 advances, and anything else resets to IDLE. -/
def Obligations.DataSpaceAdvancesOrResets : Prop :=
  ∀ (s : State) (n : Units), s.present = true → s.ds.receiving = true →
    1 ≤ s.ds.bitPos → s.ds.bitPos < s.cfg.lastPos → s.ds.bitPos % 2 = 1 →
    (inTol s.cfg (elapsed s.cfg n s.ds.accCnt) s.cfg.tSpace = true →
      exec (.space n) s = .next { s with ds := { s.ds with accCnt := 0, bitPos := s.ds.bitPos + 1 },
                                         outputs := s.outputs ++ [.code none] }) ∧
    (inTol s.cfg (elapsed s.cfg n s.ds.accCnt) s.cfg.tSpace = false →
      exec (.space n) s = .next { s with ds := { DS.reset with lastCmd := s.ds.lastCmd },
                                         outputs := s.outputs ++ [.code none] }) ∧
    exec (.mark n) s = .next { s with ds := { DS.reset with lastCmd := s.ds.lastCmd },
                                      outputs := s.outputs ++ [.code none] }

/-- R120, R121, R122, R125: in TERM a mark resets without an event; a space puts out one event with the parsed code, its class
and the time, sets `last_cmd` and resets; but for an in-tolerance space under RESET_IF_IN_TOL, which resets without one (the spec's decisions D9, D17). -/
def Obligations.TerminalSpaceEmitsTheCommand : Prop :=
  ∀ (s : State) (n : Units), s.present = true → s.cfg.wf = true → s.ds.receiving = true → s.ds.bitPos = s.cfg.lastPos →
    exec (.mark n) s = .next { s with ds := { DS.reset with lastCmd := s.ds.lastCmd },
                                      outputs := s.outputs ++ [.code none] } ∧
    (inTol s.cfg (elapsed s.cfg n s.ds.accCnt) s.cfg.tSpace = false ∨ s.cfg.term13 = .emitAnySpace →
      exec (.space n) s = .next { s with
        ds := { DS.reset with lastCmd := some s.now },
        outputs := s.outputs ++ [.code (some ⟨parse s.ds.bitBuf, classify (parse s.ds.bitBuf), s.now⟩)] }) ∧
    (inTol s.cfg (elapsed s.cfg n s.ds.accCnt) s.cfg.tSpace = true → s.cfg.term13 = .resetIfInTol →
      exec (.space n) s = .next { s with ds := { DS.reset with lastCmd := s.ds.lastCmd },
                                         outputs := s.outputs ++ [.code none] })

/-- Derived from R134: whatever receiving state a code finds, if it matches none of R113, R115, R116, R118, R121, R122 the next
state is IDLE with an empty buffer and there is no event. -/
def Obligations.TimingViolationResetsSilently : Prop :=
  ∀ (s t : State) (p : Bool) (n : Units), s.cfg.wf = true → s.ds.Inv s.cfg → s.ds.receiving = true →
    exec (if p then .mark n else .space n) s = .next t →
    ¬(p = false ∧ s.ds.bitPos = -1 ∧ inSpaceWindow s.cfg (elapsed s.cfg n s.ds.accCnt) = true) →
    ¬(p = true ∧ 0 ≤ s.ds.bitPos ∧ s.ds.bitPos % 2 = 0 ∧
      (inPulseWindow s.cfg (elapsed s.cfg n s.ds.accCnt) = true ∨
       inSpaceWindow s.cfg (elapsed s.cfg n s.ds.accCnt) = true)) →
    ¬(p = false ∧ 0 ≤ s.ds.bitPos ∧ s.ds.bitPos % 2 = 1 ∧ s.ds.bitPos < s.cfg.lastPos ∧
      inSpaceWindow s.cfg (elapsed s.cfg n s.ds.accCnt) = true) →
    ¬(p = false ∧ s.ds.bitPos = s.cfg.lastPos) →
    t.ds.receiving = false ∧ t.ds.bitPos = -1 ∧ t.ds.bitBuf = [] ∧ t.ds.lastCmd = s.ds.lastCmd ∧ t.events = s.events

/-! ## The command -/

/-- Derived from R124 and conflict C1: the buffer of bits in decoding order, each inserted at the front, parses with the first
decoded bit least significant, and as many bits as the buffer has. -/
def Obligations.FirstDecodedBitIsLeastSignificant : Prop :=
  ∀ bits : List Bool,
    parse bits.reverse = ∑ i ∈ Finset.range bits.length, (bits.getD i false).toNat * 2 ^ i ∧
    parse bits < 2 ^ bits.length

/-- R151: the classification of every code. -/
def Obligations.ClassificationOfEveryCode : Prop :=
  classify 0 = .none ∧ classify 18 = .volumeUp ∧ classify 19 = .volumeDown ∧ classify 20 = .mute ∧
  classify 21 = .power ∧
  ∀ c : Nat, c ≠ 0 → c ≠ 18 → c ≠ 19 → c ≠ 20 → c ≠ 21 → classify c = .unknown c

/-- Derived from R26: after seven insertions the 7-bit shift register holds what the buffer parses to. -/
def Obligations.ShiftRegisterHoldsTheParsedBuffer : Prop :=
  ∀ bits : List Bool, bits.length = 7 →
    (bits.foldl srInsert 0#7).toNat = parse (bits.foldl (fun buf v => v :: buf) [])

/-- Derived from R126, R125: a packet puts out at most one event, at its own time; it sets `last_cmd` to that time, and a packet
without an event leaves `last_cmd` alone. -/
def Obligations.AtMostOneCommandPerPacket : Prop :=
  ∀ (s : State) (codes : Codes) (len : Byte), s.present = true →
    ∃ t new, exec (.rxd codes len) s = .next t ∧ t.events = s.events ++ new ∧ new.length ≤ 1 ∧
      (∀ e ∈ new, e.t = s.now ∧ t.ds.lastCmd = some s.now) ∧ (new = [] → t.ds.lastCmd = s.ds.lastCmd)

/-- Derived from R203: an idle block within the debounce time of its last command takes no header from a whole packet, puts out
no event, and keeps all but the accumulator. -/
def Obligations.DebounceSuppressesTheWholePacket : Prop :=
  ∀ (s : State) (codes : Codes) (len : Byte) (l : Nat), s.present = true → s.ds.receiving = false →
    s.ds.lastCmd = some l → (s.now : Int) - (l : Int) ≤ (s.cfg.debounce : Int) →
    ∃ t acc, exec (.rxd codes len) s = .next t ∧ t.ds = { s.ds with accCnt := acc } ∧ t.events = s.events

/-- Derived from R141 and C7: from IDLE with the debounce open, any well-timed frame of sixteen codes, each at its own time,
ends in IDLE with one event: the code of its bits, at the time of its terminal space. That pulse codes are presented on their
own is the model's choice (notes/assumptions/5); the next statement is about packets. -/
def Obligations.ValidFrameEmitsItsCode : Prop :=
  ∀ (s : State) (header headerSpace : Units) (slots : List BitSlot) (time : Nat → Nat) (rest : List Input),
    s.cfg = Config.default → s.present = true → s.ds.receiving = false → s.ds.accCnt = 0 → s.ds.bitBuf = [] →
    debounceOk s.cfg s.ds.lastCmd (timeIn s.cfg (time 0)) = true →
    FrameFits s.cfg header headerSpace slots →
    (∀ x ∈ slots, x.space ≠ 0#7 ∧ x.space ≠ 127#7) →
    s.inputs = presentCodes time (frameBytes header headerSpace slots) ++ rest →
    ∃ t, Host.Core.run Sys2Proof.core 16 s = .next t ∧
      t.ds = { DS.reset with lastCmd := some (timeIn s.cfg (time 15)) } ∧
      t.events = s.events ++ [⟨frameCode slots, classify (frameCode slots), timeIn s.cfg (time 15)⟩] ∧ t.inputs = rest

/-- Derived from R201, R141, R121, R122, R93: the same for a frame carried by receiver-data packets, from IDLE with the debounce
open. Skips may stand in any slot, carries before the terminal space, other codes behind it in its packet; each packet is one
that the discriminator takes for data (R206). The header is in the first packet and the terminal space in the last. Under
RESET_IF_IN_TOL the terminal space is out of tolerance, by its own length or by a carry. One event comes out, the code of the
frame's bits at the last packet's time (the spec's decisions D6, D9); a code behind the frame can change the accumulator alone. -/
def Obligations.ValidFrameInPacketsEmitsItsCode : Prop :=
  ∀ (s : State) (header headerSpace : Units) (slots : List BitSlot) (carries : List Bool) (first : DataPacket)
    (middle : List DataPacket) (last : DataPacket) (tail : List Byte) (rest : List Input),
    s.cfg = { Config.default with term13 := s.cfg.term13 } →
    s.present = true → s.ds.receiving = false → s.ds.accCnt = 0 → s.ds.bitBuf = [] →
    debounceOk s.cfg s.ds.lastCmd (timeIn s.cfg first.now) = true →
    FrameFits s.cfg header headerSpace slots →
    (∀ x ∈ slots, x.space ≠ 0#7 ∧ x.space ≠ 127#7) →
    (s.cfg.term13 = .emitAnySpace ∨ carries ≠ [] ∨
      ∀ x ∈ slots.getLast?, inSpaceWindow s.cfg (elapsed s.cfg x.space 0) = false) →
    (∀ p ∈ first :: middle ++ [last], (Instr.rxd p.codes p.declLen).wf s.cfg = true) →
    liveCodes s.cfg [first] ≠ [] →
    liveCodes s.cfg (first :: middle ++ [last]) = frameWithGap s.cfg header headerSpace slots carries ++ tail →
    (liveCodes s.cfg (first :: middle)).length < (frameWithGap s.cfg header headerSpace slots carries).length →
    s.inputs = (first :: middle ++ [last]).map DataPacket.input ++ rest →
    ∃ t acc, Host.Core.run Sys2Proof.core (middle.length + 2) s = .next t ∧
      t.ds = { DS.reset with accCnt := acc, lastCmd := some (timeIn s.cfg last.now) } ∧ (tail = [] → acc = 0) ∧
      t.events = s.events ++ [⟨frameCode slots, classify (frameCode slots), timeIn s.cfg last.now⟩] ∧ t.inputs = rest

/-! ## Rules of the whole machine -/

/-- Derived from R27, R23, R24, R25, R150: every step keeps the demodulator state legal and every time `TS_W` bits wide, and every
event put out is a code of `NBITS` bits with its class. -/
def Obligations.EveryStepKeepsTheInvariant : Prop :=
  ∀ (s t : State), s.Inv → step s = .next t → t.Inv

/-- Derived from R209 and R111: while the host's times do not decrease, the last command lies in the past, and a frame in
progress began more than the debounce time after it. -/
def Obligations.EveryStepKeepsTheSpacing : Prop :=
  ∀ (s t : State), s.Spaced → step s = .next t → t.Spaced

/-- Derived from R203, R111 and R126 (the source's debounce law): while the host's times do not decrease, a step puts out at most
one event, and it comes more than the debounce time after the last command since the block reset. -/
def Obligations.CommandsAreMoreThanTheDebounceApart : Prop :=
  ∀ (s t : State), s.Spaced → step s = .next t →
    ∃ new, t.events = s.events ++ new ∧ new.length ≤ 1 ∧
      ∀ e ∈ new, e.t = t.now ∧ t.ds.lastCmd = some e.t ∧
        ∀ l, s.ds.lastCmd = some l → l + s.cfg.debounce < e.t

/-- Derived from R28: a legal demodulator state is in exactly one of the named states. -/
def Obligations.LegalStateHasOneName : Prop :=
  ∀ (cfg : Config) (ds : DS), cfg.wf = true → ds.Inv cfg → ∃! x : NamedState cfg.nBits, x.pair = (ds.receiving, ds.bitPos)

/-- Derived from R32, R40, R48: the frame of every instruction: it leaves the parameters, the presence, the time input and the
host's stream alone, adds exactly one output, and only RXD, CARRY, MARK and SPACE touch `DS`. -/
def Obligations.InstructionFrame : Prop :=
  ∀ (i : Instr) (s t : State), exec i s = .next t →
    t.cfg = s.cfg ∧ t.present = s.present ∧ t.now = s.now ∧ t.inputs = s.inputs ∧
    (∃ o, t.outputs = s.outputs ++ [o]) ∧
    ((∀ codes len, i ≠ .rxd codes len) → (∀ sp, i ≠ .carry sp) → (∀ n, i ≠ .mark n) → (∀ n, i ≠ .space n) →
      t.ds = s.ds ∧ t.events = s.events)

/-- Derived from R32: no step writes a parameter, and none rewrites an output already put out. -/
def Obligations.NoStepWritesParametersOrPastOutputs : Prop :=
  ∀ (s t : State), step s = .next t → t.cfg = s.cfg ∧ s.outputs <+: t.outputs ∧ t.outputs.length ≤ s.outputs.length + 1

/-- Derived from R25, R125, R131, R192: `last_cmd` changes only with an event, to that event's time, or in a block reset or
shutdown. R191 says only that a shutdown discards `DS`: that `last_cmd` of the absent block then reads NONE is the model's own
value (notes/assumptions/4, DESIGN CHOICE). -/
def Obligations.LastCommandChangesOnlyWithAnEvent : Prop :=
  ∀ (s t : State), step s = .next t →
    t.ds.lastCmd = s.ds.lastCmd ∨
    (∃ e, t.events = s.events ++ [e] ∧ e.t = t.now ∧ t.ds.lastCmd = some e.t) ∨
    (∃ rest, s.inputs = .reset :: rest ∨ s.inputs = .shutdown :: rest) ∧ t.ds.lastCmd = none ∧ t.events = s.events

/-- Derived from R48, R202, R205: a packet that is not receiver data, length errors included, leaves `DS` and the event output as
they are, so a frame and a carry in progress survive it. -/
def Obligations.OnlyReceiverDataTouchesTheFrame : Prop :=
  ∀ (s t : State) (buf : List Byte) (now : Nat) (rest : List Input), s.inputs = .packet buf now :: rest →
    (∀ codes len, decodePacket s.cfg buf ≠ .ok (.rxd codes len)) → step s = .next t →
    t.ds = s.ds ∧ t.events = s.events

/-- Derived from R55: an encode request presented before a packet or after it gives the same `DS` and the same events. -/
def Obligations.EncodeRequestsCommuteWithPackets : Prop :=
  ∀ (s : State) (q : Request) (buf : List Byte) (now : Nat) (rest : List Input), s.present = true →
    ∃ t u, Host.Core.run Sys2Proof.core 2 { s with inputs := .request q :: .packet buf now :: rest } = .next t ∧
      Host.Core.run Sys2Proof.core 2 { s with inputs := .packet buf now :: .request q :: rest } = .next u ∧
      t.ds = u.ds ∧ t.events = u.events ∧ t.now = u.now ∧ t.inputs = u.inputs

/-- Derived from R96: the status and the result of a packet depend on its bytes alone, and `DS` and the events on the bytes, the
time and `DS` alone. -/
def Obligations.ResultDependsOnTheBytesAlone : Prop :=
  ∀ (s s' : State) (buf : List Byte) (now now' : Nat) (rest rest' : List Input),
    s.present = true → s'.present = true → s.cfg = s'.cfg →
    s.inputs = .packet buf now :: rest → s'.inputs = .packet buf now' :: rest' →
    ∃ t t' st r evs evs', step s = .next t ∧ step s' = .next t' ∧
      t.outputs = s.outputs ++ [.packet st r evs] ∧ t'.outputs = s'.outputs ++ [.packet st r evs'] ∧
      (now = now' → s.ds = s'.ds → t.ds = t'.ds ∧ evs = evs')

/-- Derived from R168 and R50; that the host's stream and the record of outputs stand in the state is the model's choice
(notes/assumptions/1 and 2): a step sees the head of the stream alone, and nothing of what was put out before. -/
def Obligations.StepSeesOnlyTheHeadOfTheStream : Prop :=
  ∀ (s t : State) (x : Input) (rest rest' : List Input) (past : List Output), s.inputs = x :: rest → step s = .next t →
    ∃ new, t.outputs = s.outputs ++ new ∧
      step { s with inputs := x :: rest', outputs := past } = .next { t with inputs := rest', outputs := past ++ new }

/-- Derived from R177: the time input is read only by the debounce, in IDLE after a command, and by the emit, in TERM: elsewhere
a pulse code does the same at any time. -/
def Obligations.TimeIsReadOnlyByDebounceAndEmit : Prop :=
  ∀ (s t : State) (b : Byte) (now : Nat), s.cfg.wf = true → s.ds.Inv s.cfg →
    (s.ds.lastCmd = none ∨ s.ds.receiving = true) → s.ds.bitPos ≠ s.cfg.lastPos →
    exec (decodeCode s.cfg b) s = .next t → exec (decodeCode s.cfg b) { s with now := now } = .next { t with now := now }
end

