-- ==== Sys2Proof/Laws/Decode.lean ====
section
/-! SUPPORT. The small lemmas of the decoder and the encoder. -/

namespace Sys2Proof

/-! ### The parameters -/

/-- What a well-formed record says, as equations. -/
theorem Config.wf_iff (c : Config) :
    c.wf = true ↔ 0 < c.unitDen ∧ c.pktLen = 8 ∧ c.nCodes = 7 ∧ c.lastPos + 1 = 2 * c.nBits := by
  simp only [Config.wf, decide_eq_true_eq]
  omega

theorem Config.default_wf : Config.default.wf = true := by decide

/-! ### The two fields of a pulse code -/

theorem unitsOf_codeByte (s : Bool) (n : Units) : unitsOf (codeByte s n) = n := by
  revert s n; decide

theorem spaceFlag_codeByte (s : Bool) (n : Units) : spaceFlag (codeByte s n) = s := by
  revert s n; decide

/-- A byte is its two fields and nothing else. -/
theorem codeByte_fields (b : Byte) : codeByte (spaceFlag b) (unitsOf b) = b := by
  revert b; decide

/-- Two pulse codes are one only with the same fields. -/
theorem codeByte_inj {s s' : Bool} {n n' : Units} (h : codeByte s n = codeByte s' n') : s = s' ∧ n = n' := by
  constructor
  · simpa [spaceFlag_codeByte] using congrArg spaceFlag h
  · simpa [unitsOf_codeByte] using congrArg unitsOf h

/-- The default skip byte is the space of no units. -/
theorem codeByte_eq_skipByte (s : Bool) (n : Units) : codeByte s n = 0x80#8 ↔ s = true ∧ n = 0#7 := by
  have h : (0x80#8 : Byte) = codeByte true 0#7 := by decide
  rw [h]
  constructor
  · exact codeByte_inj
  · rintro ⟨rfl, rfl⟩; rfl

/-- The class of a byte given by its fields (30_encoding.md R66). -/
theorem classOf_codeByte (cfg : Config) (s : Bool) (n : Units) :
    classOf cfg (codeByte s n) =
      if codeByte s n = cfg.skipByte then .skip
      else if n = cfg.satUnits then .carry s
      else if s = false then .mark n
      else .space n := by
  simp only [classOf, unitsOf_codeByte, spaceFlag_codeByte]

/-- Two blocks with the same skip byte and saturation count read the same classes. -/
theorem classOf_congr {c d : Config} (h1 : c.skipByte = d.skipByte) (h2 : c.satUnits = d.satUnits) (b : Byte) :
    classOf c b = classOf d b := by
  unfold classOf; rw [h1, h2]

/-! ### Packets -/

/-- A buffer of `PKT_LEN` bytes is decoded as it is, under either policy. -/
theorem decodePacket_exact (cfg : Config) (buf : List Byte) (h : buf.length = cfg.pktLen) :
    decodePacket cfg buf = .ok (decodeFields cfg buf) := by
  have hp : applyShortPolicy cfg buf = buf := by
    unfold applyShortPolicy; split <;> simp [h]
  simp [decodePacket, hp, h]

/-- The eight bytes of a packet, written out. -/
theorem decodePacket_eight (cfg : Config) (hc : cfg.wf = true) (b0 b1 b2 b3 b4 b5 b6 b7 : Byte) :
    decodePacket cfg [b0, b1, b2, b3, b4, b5, b6, b7] = .ok
      (if b0 = 0#8 ∧ b1 = 0#8 then decodeControl b2 b3 ⟨b4, b5, b6, b7⟩ else .rxd [b0, b1, b2, b3, b4, b5, b6] b7) := by
  obtain ⟨_, h8, h7, _⟩ := cfg.wf_iff.mp hc
  rw [decodePacket_exact _ _ (by simp [h8])]
  simp [decodeFields, byteAt, h7]

/-- A buffer in the CTL format reaches the CTL rows. -/
theorem decodePacket_controlBytes (cfg : Config) (hc : cfg.wf = true) (dir type : Byte) (data : Data4) :
    decodePacket cfg (controlBytes dir type data) = .ok (decodeControl dir type data) := by
  simp [controlBytes, Data4.toList, decodePacket_eight cfg hc]

/-- A list of eight bytes, written out. -/
theorem eight_bytes {buf : List Byte} (h : buf.length = 8) :
    ∃ b0 b1 b2 b3 b4 b5 b6 b7, buf = [b0, b1, b2, b3, b4, b5, b6, b7] := by
  match buf, h with
  | [b0, b1, b2, b3, b4, b5, b6, b7], _ => exact ⟨b0, b1, b2, b3, b4, b5, b6, b7, rfl⟩

/-- The codes and the declared length, put together, are read back. -/
theorem decodePacket_rxd (cfg : Config) (hc : cfg.wf = true) (codes : Codes) (declLen : Byte)
    (h : (Instr.rxd codes declLen).wf cfg = true) : decodePacket cfg (codes ++ [declLen]) = .ok (.rxd codes declLen) := by
  obtain ⟨_, h8, h7, _⟩ := cfg.wf_iff.mp hc
  simp only [Instr.wf, decide_eq_true_eq, h7] at h
  match codes, h with
  | [c0, c1, c2, c3, c4, c5, c6], ⟨_, h⟩ =>
    have : ¬(c0 = 0#8 ∧ c1 = 0#8) := by simp [byteAt] at h; tauto
    simp only [List.cons_append, List.nil_append, decodePacket_eight cfg hc, this, if_false]

/-- A buffer that is too short is rejected, or padded with zeros and decoded (40_packet_codec.md R82). -/
theorem decodePacket_short (cfg : Config) (buf : List Byte) (h : buf.length < cfg.pktLen)
    (hp : cfg.shortPolicy = .rejectShort) : decodePacket cfg buf = .short := by
  simp [decodePacket, applyShortPolicy, hp, h, Nat.not_lt.mpr h.le]

theorem decodePacket_pad (cfg : Config) (buf : List Byte) (h : buf.length < cfg.pktLen)
    (hp : cfg.shortPolicy = .padZero) :
    decodePacket cfg buf = .ok (decodeFields cfg (buf ++ List.replicate (cfg.pktLen - buf.length) 0#8)) := by
  have : buf.length + (cfg.pktLen - buf.length) = cfg.pktLen := by omega
  simp [decodePacket, applyShortPolicy, hp, Nat.not_lt.mpr h.le, this]

theorem decodePacket_long (cfg : Config) (buf : List Byte) (h : cfg.pktLen < buf.length) :
    decodePacket cfg buf = .malformed := by
  simp [decodePacket, h]

/-- Both named fields read back what the encoder writes (40_packet_codec.md R84, R94). -/
theorem dirOf_dirCode (d : NamedDir) : dirOf (dirCode d) = .named d := by cases d <;> decide

theorem typeOf_typeCode (t : NamedType) : typeOf (typeCode t) = .named t := by cases t <;> decide

end Sys2Proof
end

