-- ==== Sys2Proof/Laws/State.lean ====
section
/-! SUPPORT. One lemma per field per update, so that no proof unfolds a record update. -/

namespace Sys2Proof.Machine

open Sys2Proof

/-! ### clearAcc -/

@[simp] theorem clearAcc_accCnt (ds : DS) : (clearAcc ds).accCnt = 0 := rfl
@[simp] theorem clearAcc_receiving (ds : DS) : (clearAcc ds).receiving = ds.receiving := rfl
@[simp] theorem clearAcc_bitPos (ds : DS) : (clearAcc ds).bitPos = ds.bitPos := rfl
@[simp] theorem clearAcc_bitBuf (ds : DS) : (clearAcc ds).bitBuf = ds.bitBuf := rfl
@[simp] theorem clearAcc_lastCmd (ds : DS) : (clearAcc ds).lastCmd = ds.lastCmd := rfl

/-! ### protocolReset -/

@[simp] theorem protocolReset_accCnt (ds : DS) : (protocolReset ds).accCnt = ds.accCnt := rfl
@[simp] theorem protocolReset_receiving (ds : DS) : (protocolReset ds).receiving = false := rfl
@[simp] theorem protocolReset_bitPos (ds : DS) : (protocolReset ds).bitPos = -1 := rfl
@[simp] theorem protocolReset_bitBuf (ds : DS) : (protocolReset ds).bitBuf = [] := rfl
@[simp] theorem protocolReset_lastCmd (ds : DS) : (protocolReset ds).lastCmd = ds.lastCmd := rfl

/-! ### emitCommand -/

@[simp] theorem emitCommand_accCnt (ds : DS) (now : Nat) : (emitCommand ds now).accCnt = ds.accCnt := rfl
@[simp] theorem emitCommand_receiving (ds : DS) (now : Nat) : (emitCommand ds now).receiving = ds.receiving := rfl
@[simp] theorem emitCommand_bitPos (ds : DS) (now : Nat) : (emitCommand ds now).bitPos = ds.bitPos := rfl
@[simp] theorem emitCommand_bitBuf (ds : DS) (now : Nat) : (emitCommand ds now).bitBuf = ds.bitBuf := rfl
@[simp] theorem emitCommand_lastCmd (ds : DS) (now : Nat) : (emitCommand ds now).lastCmd = some now := rfl

/-! ### pushBit -/

@[simp] theorem pushBit_accCnt (ds : DS) (v : Bool) : (pushBit ds v).accCnt = ds.accCnt := rfl
@[simp] theorem pushBit_receiving (ds : DS) (v : Bool) : (pushBit ds v).receiving = ds.receiving := rfl
@[simp] theorem pushBit_bitPos (ds : DS) (v : Bool) : (pushBit ds v).bitPos = ds.bitPos + 1 := rfl
@[simp] theorem pushBit_bitBuf (ds : DS) (v : Bool) : (pushBit ds v).bitBuf = v :: ds.bitBuf := rfl
@[simp] theorem pushBit_lastCmd (ds : DS) (v : Bool) : (pushBit ds v).lastCmd = ds.lastCmd := rfl

/-! ### advance -/

@[simp] theorem advance_accCnt (ds : DS) : (advance ds).accCnt = ds.accCnt := rfl
@[simp] theorem advance_receiving (ds : DS) : (advance ds).receiving = ds.receiving := rfl
@[simp] theorem advance_bitPos (ds : DS) : (advance ds).bitPos = ds.bitPos + 1 := rfl
@[simp] theorem advance_bitBuf (ds : DS) : (advance ds).bitBuf = ds.bitBuf := rfl
@[simp] theorem advance_lastCmd (ds : DS) : (advance ds).lastCmd = ds.lastCmd := rfl

/-! ### DS.reset -/

@[simp] theorem dsReset_accCnt : DS.reset.accCnt = 0 := rfl
@[simp] theorem dsReset_receiving : DS.reset.receiving = false := rfl
@[simp] theorem dsReset_bitPos : DS.reset.bitPos = -1 := rfl
@[simp] theorem dsReset_bitBuf : DS.reset.bitBuf = [] := rfl
@[simp] theorem dsReset_lastCmd : DS.reset.lastCmd = none := rfl

/-! ### putOut -/

@[simp] theorem putOut_cfg (o : Output) (s : State) : (putOut s o).cfg = s.cfg := rfl
@[simp] theorem putOut_ds (o : Output) (s : State) : (putOut s o).ds = s.ds := rfl
@[simp] theorem putOut_present (o : Output) (s : State) : (putOut s o).present = s.present := rfl
@[simp] theorem putOut_now (o : Output) (s : State) : (putOut s o).now = s.now := rfl
@[simp] theorem putOut_inputs (o : Output) (s : State) : (putOut s o).inputs = s.inputs := rfl
@[simp] theorem putOut_outputs (o : Output) (s : State) : (putOut s o).outputs = s.outputs ++ [o] := rfl

/-! ### blockReset -/

@[simp] theorem blockReset_cfg (s : State) : (blockReset s).cfg = s.cfg := rfl
@[simp] theorem blockReset_ds (s : State) : (blockReset s).ds = DS.reset := rfl
@[simp] theorem blockReset_present (s : State) : (blockReset s).present = true := rfl
@[simp] theorem blockReset_now (s : State) : (blockReset s).now = s.now := rfl
@[simp] theorem blockReset_inputs (s : State) : (blockReset s).inputs = s.inputs := rfl
@[simp] theorem blockReset_outputs (s : State) : (blockReset s).outputs = s.outputs := rfl

/-! ### shutdown -/

@[simp] theorem shutdown_cfg (s : State) : (shutdown s).cfg = s.cfg := rfl
@[simp] theorem shutdown_ds (s : State) : (shutdown s).ds = DS.reset := rfl
@[simp] theorem shutdown_present (s : State) : (shutdown s).present = false := rfl
@[simp] theorem shutdown_now (s : State) : (shutdown s).now = s.now := rfl
@[simp] theorem shutdown_inputs (s : State) : (shutdown s).inputs = s.inputs := rfl
@[simp] theorem shutdown_outputs (s : State) : (shutdown s).outputs = s.outputs := rfl

/-! ### rejectPacket -/

@[simp] theorem rejectPacket_cfg (st : Status) (r : Result) (s : State) : (rejectPacket st r s).cfg = s.cfg := rfl
@[simp] theorem rejectPacket_ds (st : Status) (r : Result) (s : State) : (rejectPacket st r s).ds = s.ds := rfl
@[simp] theorem rejectPacket_present (st : Status) (r : Result) (s : State) : (rejectPacket st r s).present = s.present := rfl
@[simp] theorem rejectPacket_now (st : Status) (r : Result) (s : State) : (rejectPacket st r s).now = s.now := rfl
@[simp] theorem rejectPacket_inputs (st : Status) (r : Result) (s : State) : (rejectPacket st r s).inputs = s.inputs := rfl
@[simp] theorem rejectPacket_outputs (st : Status) (r : Result) (s : State) : (rejectPacket st r s).outputs = s.outputs ++ [.packet st r []] := rfl

/-! ### controlPacket -/

@[simp] theorem controlPacket_cfg (dir : Byte) (type : PType) (data : Data4) (s : State) : (controlPacket dir type data s).cfg = s.cfg := rfl
@[simp] theorem controlPacket_ds (dir : Byte) (type : PType) (data : Data4) (s : State) : (controlPacket dir type data s).ds = s.ds := rfl
@[simp] theorem controlPacket_present (dir : Byte) (type : PType) (data : Data4) (s : State) : (controlPacket dir type data s).present = s.present := rfl
@[simp] theorem controlPacket_now (dir : Byte) (type : PType) (data : Data4) (s : State) : (controlPacket dir type data s).now = s.now := rfl
@[simp] theorem controlPacket_inputs (dir : Byte) (type : PType) (data : Data4) (s : State) : (controlPacket dir type data s).inputs = s.inputs := rfl
@[simp] theorem controlPacket_outputs (dir : Byte) (type : PType) (data : Data4) (s : State) : (controlPacket dir type data s).outputs = s.outputs ++ [.packet .control (.control (dirOf dir) type data) []] := rfl

/-! ### encodePacket -/

@[simp] theorem encodePacket_cfg (dir : NamedDir) (type : NamedType) (data : Data4) (s : State) : (encodePacket dir type data s).cfg = s.cfg := rfl
@[simp] theorem encodePacket_ds (dir : NamedDir) (type : NamedType) (data : Data4) (s : State) : (encodePacket dir type data s).ds = s.ds := rfl
@[simp] theorem encodePacket_present (dir : NamedDir) (type : NamedType) (data : Data4) (s : State) : (encodePacket dir type data s).present = s.present := rfl
@[simp] theorem encodePacket_now (dir : NamedDir) (type : NamedType) (data : Data4) (s : State) : (encodePacket dir type data s).now = s.now := rfl
@[simp] theorem encodePacket_inputs (dir : NamedDir) (type : NamedType) (data : Data4) (s : State) : (encodePacket dir type data s).inputs = s.inputs := rfl
@[simp] theorem encodePacket_outputs (dir : NamedDir) (type : NamedType) (data : Data4) (s : State) : (encodePacket dir type data s).outputs = s.outputs ++ [.encoded (encodeRequest dir type data)] := rfl

/-! ### finishCode -/

@[simp] theorem finishCode_cfg (r : DS × Option Event) (s : State) : (finishCode s r).cfg = s.cfg := rfl
@[simp] theorem finishCode_ds (r : DS × Option Event) (s : State) : (finishCode s r).ds = r.1 := rfl
@[simp] theorem finishCode_present (r : DS × Option Event) (s : State) : (finishCode s r).present = s.present := rfl
@[simp] theorem finishCode_now (r : DS × Option Event) (s : State) : (finishCode s r).now = s.now := rfl
@[simp] theorem finishCode_inputs (r : DS × Option Event) (s : State) : (finishCode s r).inputs = s.inputs := rfl
@[simp] theorem finishCode_outputs (r : DS × Option Event) (s : State) : (finishCode s r).outputs = s.outputs ++ [.code r.2] := rfl

/-! ### finishData -/

@[simp] theorem finishData_cfg (codes : Codes) (declLen : Byte) (r : DS × List Event) (s : State) : (finishData codes declLen s r).cfg = s.cfg := rfl
@[simp] theorem finishData_ds (codes : Codes) (declLen : Byte) (r : DS × List Event) (s : State) : (finishData codes declLen s r).ds = r.1 := rfl
@[simp] theorem finishData_present (codes : Codes) (declLen : Byte) (r : DS × List Event) (s : State) : (finishData codes declLen s r).present = s.present := rfl
@[simp] theorem finishData_now (codes : Codes) (declLen : Byte) (r : DS × List Event) (s : State) : (finishData codes declLen s r).now = s.now := rfl
@[simp] theorem finishData_inputs (codes : Codes) (declLen : Byte) (r : DS × List Event) (s : State) : (finishData codes declLen s r).inputs = s.inputs := rfl
@[simp] theorem finishData_outputs (codes : Codes) (declLen : Byte) (r : DS × List Event) (s : State) : (finishData codes declLen s r).outputs = s.outputs ++ [.packet .data (.data codes declLen) r.2] := rfl

/-! ### The event output -/

@[simp] theorem outputEvents_packet (st : Status) (r : Result) (evs : List Event) :
    (Output.packet st r evs).events = evs := rfl

@[simp] theorem outputEvents_code (ev : Option Event) : (Output.code ev).events = ev.toList := rfl

@[simp] theorem outputEvents_encoded (bytes : List Byte) : (Output.encoded bytes).events = [] := rfl

/-- One output more adds its events at the end of the event output. -/
theorem events_append (s t : State) (o : Output) (h : t.outputs = s.outputs ++ [o]) :
    t.events = s.events ++ o.events := by
  simp [State.events, h]

/-- The same outputs, the same events. -/
theorem events_same (s t : State) (h : t.outputs = s.outputs) : t.events = s.events := by
  simp [State.events, h]

end Sys2Proof.Machine
end

