-- ==== Sys2Proof/Laws/Ops.lean ====
section
/-! SUPPORT. What each shared operation can do, said once. -/

namespace Sys2Proof.Machine

open Sys2Proof

/-- A transaction completes exactly on a present block. -/
theorem whenPresent_next {s t u : State} : whenPresent s t = .next u ↔ s.present = true ∧ u = t := by
  unfold whenPresent
  split
  · rename_i hp; exact ⟨fun h => ⟨hp, (Host.Outcome.next.inj h).symm⟩, fun h => h.2 ▸ rfl⟩
  · rename_i hp; exact ⟨(nomatch ·), fun h => absurd h.1 hp⟩

theorem whenPresent_present {s t : State} (h : s.present = true) : whenPresent s t = .next t := by
  simp [whenPresent, h]

theorem whenPresent_absent {s t : State} (h : s.present = false) : whenPresent s t = .fault .blockAbsent := by
  simp [whenPresent, h]

theorem whenPresent_not_refused {s t : State} {r : Refusal} : whenPresent s t ≠ .refused r := by
  unfold whenPresent
  split <;> simp

/-- The time input is `TS_W` bits wide. -/
theorem timeIn_lt (cfg : Config) (t : Nat) : timeIn cfg t < 2 ^ cfg.tsW := Nat.mod_lt _ (Nat.two_pow_pos _)

/-- A time that fits is sampled as it is. -/
theorem timeIn_of_lt {cfg : Config} {t : Nat} (h : t < 2 ^ cfg.tsW) : timeIn cfg t = t := Nat.mod_eq_of_lt h

/-- The counter stays in its width, whatever it held. -/
theorem satInc_le (n x : Nat) : satInc n x ≤ 2 ^ n - 1 := by
  unfold satInc; omega

/-- The exact ceiling, as a bound from both sides. -/
theorem ceilDiv_spec (p d : Nat) (hd : 0 < d) : p ≤ ceilDiv p d * d ∧ ceilDiv p d * d < p + d := by
  unfold ceilDiv
  have h1 := Nat.div_add_mod (p + d - 1) d
  have h2 := Nat.mod_lt (p + d - 1) hd
  rw [Nat.mul_comm] at h1
  omega

theorem ceilDiv_mono {p q : Nat} (d : Nat) (h : p ≤ q) : ceilDiv p d ≤ ceilDiv q d := by
  unfold ceilDiv
  exact Nat.div_le_div_right (by omega)

/-- The window as a pair of bounds. -/
theorem inTol_iff (cfg : Config) (e ref : Nat) : inTol cfg e ref = true ↔ e ≤ ref + cfg.tol ∧ ref ≤ e + cfg.tol := by
  simp only [inTol, decide_eq_true_eq]
  omega

theorem debounceOk_none (cfg : Config) (now : Nat) : debounceOk cfg none now = true := rfl

/-- The debounce as a strict bound without subtraction. -/
theorem debounceOk_some (cfg : Config) (t now : Nat) :
    debounceOk cfg (some t) now = true ↔ t + cfg.debounce < now := by
  simp only [debounceOk, decide_eq_true_eq]
  omega

/-- One bit more in front of the buffer, as the fold of `parse` sees it. -/
theorem parse_append (xs : List Bool) (b : Bool) : parse (xs ++ [b]) = 2 * parse xs + b.toNat := by
  simp [parse]

/-- A code has as many bits as the buffer. -/
theorem parse_lt (xs : List Bool) : parse xs < 2 ^ xs.length := by
  induction xs using List.reverseRecOn with
  | nil => simp [parse]
  | append_singleton ys b ih =>
    rw [parse_append, List.length_append, List.length_singleton, Nat.pow_succ]
    have := Bool.toNat_le b
    omega

end Sys2Proof.Machine
end

