-- ==== Sys2Proof/Laws/Demod.lean ====
section
/-! SUPPORT. What one pulse code, and a list of them, can do to the demodulator. -/

namespace Sys2Proof.Machine

open Sys2Proof

/-- Every outcome of the state dispatch, guards included (41_pulse_demodulator.md R109-R122). -/
theorem stateRule_cases (cfg : Config) (ds : DS) (p : Bool) (e : Nat) (now : Nat) :
    (ds.receiving = false ∧ stateRule cfg ds p e now = (ds, none)) ∨
    (ds.receiving = false ∧ p = true ∧ debounceOk cfg ds.lastCmd now = true ∧ inHeaderWindow cfg e = true ∧
      stateRule cfg ds p e now = ({ ds with receiving := true, bitPos := -1 }, none)) ∨
    (ds.receiving = true ∧ stateRule cfg ds p e now = (protocolReset ds, none)) ∨
    (ds.receiving = true ∧ ds.bitPos = -1 ∧ p = false ∧ inSpaceWindow cfg e = true ∧
      stateRule cfg ds p e now = ({ ds with bitPos := 0 }, none)) ∨
    (ds.receiving = true ∧ ds.bitPos ≠ -1 ∧ ds.bitPos % 2 = 0 ∧ p = true ∧
      ((inPulseWindow cfg e = true ∧ stateRule cfg ds p e now = (pushBit ds true, none)) ∨
       (inSpaceWindow cfg e = true ∧ stateRule cfg ds p e now = (pushBit ds false, none)))) ∨
    (ds.receiving = true ∧ ds.bitPos ≠ -1 ∧ ds.bitPos % 2 ≠ 0 ∧ ds.bitPos < cfg.lastPos ∧ p = false ∧
      inSpaceWindow cfg e = true ∧ stateRule cfg ds p e now = (advance ds, none)) ∨
    (ds.receiving = true ∧ ds.bitPos ≠ -1 ∧ ds.bitPos % 2 ≠ 0 ∧ (cfg.lastPos : Int) ≤ ds.bitPos ∧ p = false ∧
      stateRule cfg ds p e now = (protocolReset (emitCommand ds now), some (emitEvent ds now))) := by
  unfold stateRule
  by_cases hr : ds.receiving = false
  · simp only [hr, if_true, ruleIdle]
    split
    · right; left; simp_all
    · left; simp
  · have hr' : ds.receiving = true := by simpa using hr
    simp only [hr', Bool.true_eq_false, if_false, false_and, false_or, true_and]
    by_cases h1 : ds.bitPos = -1
    · simp only [h1, if_true, ruleHeaderSpace]
      split <;> simp_all
    · simp only [h1, if_false, false_and, false_or]
      by_cases h2 : ds.bitPos % 2 = 0
      · simp only [h2, if_true, ruleDataMark]
        split
        · simp_all
        · split <;> simp_all
      · simp only [h2, if_false]
        by_cases h3 : ds.bitPos < cfg.lastPos
        · simp only [h3, if_true, ruleDataSpace]
          split <;> simp_all
        · simp only [h3, if_false, ruleTerm]
          split
          · simp_all
          · split <;> simp_all

/-- A byte given by its fields, as its class does it. -/
theorem demodByte_codeByte (cfg : Config) (ds : DS) (s : Bool) (n : Units) (now : Nat)
    (hn : n ≠ cfg.satUnits) (h0 : codeByte s n ≠ cfg.skipByte) :
    demodByte cfg ds (codeByte s n) now = evaluate cfg ds (!s) n now := by
  unfold demodByte
  rw [classOf_codeByte, if_neg h0, if_neg hn]
  cases s <;> simp [demodMark, demodSpace]

/-- The three things one byte can do: nothing, count, or be evaluated. -/
theorem demodByte_cases (cfg : Config) (ds : DS) (b : Byte) (now : Nat) :
    demodByte cfg ds b now = (ds, none) ∨
    demodByte cfg ds b now = ({ ds with accCnt := satInc cfg.accW ds.accCnt }, none) ∨
    ∃ p n, demodByte cfg ds b now = evaluate cfg ds p n now := by
  unfold demodByte
  split
  · exact .inl rfl
  · exact .inr (.inl rfl)
  · exact .inr (.inr ⟨true, _, rfl⟩)
  · exact .inr (.inr ⟨false, _, rfl⟩)

@[simp] theorem demodCodes_nil (cfg : Config) (now : Nat) (ds : DS) : demodCodes cfg now ds [] = (ds, []) := rfl

theorem demodCodes_cons (cfg : Config) (now : Nat) (ds : DS) (b : Byte) (bs : List Byte) :
    demodCodes cfg now ds (b :: bs) =
      ((demodCodes cfg now (demodByte cfg ds b now).1 bs).1,
        (demodByte cfg ds b now).2.toList ++ (demodCodes cfg now (demodByte cfg ds b now).1 bs).2) := rfl

/-- A list of codes can be cut anywhere: the second part starts where the first ends. -/
theorem demodCodes_append (cfg : Config) (now : Nat) (ds : DS) (xs ys : List Byte) :
    demodCodes cfg now ds (xs ++ ys) =
      ((demodCodes cfg now (demodCodes cfg now ds xs).1 ys).1,
        (demodCodes cfg now ds xs).2 ++ (demodCodes cfg now (demodCodes cfg now ds xs).1 ys).2) := by
  induction xs generalizing ds with
  | nil => simp
  | cons b xs ih => simp [demodCodes_cons, ih]

/-- An induction over the codes of a packet, packaged once: what every byte keeps, the packet keeps. -/
theorem demodCodes_keeps {P : DS → Prop} (cfg : Config) (now : Nat)
    (hb : ∀ ds b, P ds → P (demodByte cfg ds b now).1) (ds : DS) (bs : List Byte) (h : P ds) :
    P (demodCodes cfg now ds bs).1 := by
  induction bs generalizing ds with
  | nil => exact h
  | cons b bs ih => exact ih _ (hb ds b h)

end Sys2Proof.Machine
end

