-- ==== Sys2Proof/Laws/PerInstr.lean ====
section
/-! SUPPORT. Statements about every instruction as syntax, one lemma per constructor. -/

namespace Sys2Proof.Laws.TableRow

open Sys2Proof

/-- A mask byte of ones keeps the byte. -/
theorem and_ones (b : Byte) : b &&& 255#8 = b := by revert b; decide

/-- The bytes of a well-formed instruction agree with its row's `match` and `mask` in spec/opcode_table.json. -/
def Statement (i : Instr) : Prop := i.wf Config.default = true → (tableRow i).admits (rowBytes i) = true

theorem rxd (codes : Codes) (declLen : Byte) : Statement (.rxd codes declLen) := by
  intro h
  replace h : codes.length = 7 ∧ (byteAt codes 0 ≠ 0#8 ∨ byteAt codes 1 ≠ 0#8) := of_decide_eq_true h
  match codes, h with
  | [c0, c1, c2, c3, c4, c5, c6], ⟨_, h⟩ =>
    have h1 : c0 ≠ 0#8 ∨ c1 ≠ 0#8 := by simpa [byteAt] using h
    rcases h1 with h1 | h1 <;> simp [tableRow, rowBytes, encode, Row.admits, wordBytes, and_ones, h1]

theorem ctlVersion (dir : Byte) (data : Data4) : Statement (.ctlVersion dir data) := by
  intro _
  simp [tableRow, rowBytes, encode, controlBytes, Data4.toList, Row.admits, wordBytes, typeCode]

theorem ctlRxEnable (dir : Byte) (data : Data4) : Statement (.ctlRxEnable dir data) := by
  intro _
  simp [tableRow, rowBytes, encode, controlBytes, Data4.toList, Row.admits, wordBytes, typeCode]

theorem ctlRxDisable (dir : Byte) (data : Data4) : Statement (.ctlRxDisable dir data) := by
  intro _
  simp [tableRow, rowBytes, encode, controlBytes, Data4.toList, Row.admits, wordBytes, typeCode]

theorem ctlRxData (dir : Byte) (data : Data4) : Statement (.ctlRxData dir data) := by
  intro _
  simp [tableRow, rowBytes, encode, controlBytes, Data4.toList, Row.admits, wordBytes, typeCode]

theorem ctlBofRx (dir : Byte) (data : Data4) : Statement (.ctlBofRx dir data) := by
  intro _
  simp [tableRow, rowBytes, encode, controlBytes, Data4.toList, Row.admits, wordBytes, typeCode]

theorem ctlBofTx (dir : Byte) (data : Data4) : Statement (.ctlBofTx dir data) := by
  intro _
  simp [tableRow, rowBytes, encode, controlBytes, Data4.toList, Row.admits, wordBytes, typeCode]

theorem ctlUnknown (dir v : Byte) (data : Data4) : Statement (.ctlUnknown dir v data) := by
  intro _
  simp [tableRow, rowBytes, encode, controlBytes, Data4.toList, Row.admits, wordBytes]

theorem skip : Statement .skip := by intro _; decide

theorem carry (s : Bool) : Statement (.carry s) := by intro _; revert s; decide

theorem mark (n : Units) : Statement (.mark n) := by intro _; revert n; decide

theorem space (n : Units) : Statement (.space n) := by intro _; revert n; decide

theorem encode (dir : NamedDir) (type : NamedType) (data : Data4) : Statement (.encode dir type data) := by
  intro _
  simp [tableRow, rowBytes, Sys2Proof.encode, encodeRequest, controlBytes, Data4.toList, Row.admits, wordBytes]

theorem getVersion : Statement .getVersion := by intro _; decide

theorem rxEnable : Statement .rxEnable := by intro _; decide

theorem rxDisable : Statement .rxDisable := by intro _; decide

end Sys2Proof.Laws.TableRow
end

