-- ==== Sys2Proof/Laws/Step.lean ====
section
/-! SUPPORT. What an instruction and a step can do: the inversion lemmas that every invariant is derived from. -/

namespace Sys2Proof.Machine

open Sys2Proof

/-- What an instruction does to the demodulator and puts out, given the state it runs in. -/
def effect (i : Instr) (s : State) : DS × Output :=
  match i with
  | .rxd codes declLen =>
    let r := demodPacket s.cfg s.ds codes s.now
    (r.1, .packet .data (.data codes declLen) r.2)
  | .ctlVersion dir data => (s.ds, .packet .control (.control (dirOf dir) (.named .version) data) [])
  | .ctlRxEnable dir data => (s.ds, .packet .control (.control (dirOf dir) (.named .rxEnable) data) [])
  | .ctlRxDisable dir data => (s.ds, .packet .control (.control (dirOf dir) (.named .rxDisable) data) [])
  | .ctlRxData dir data => (s.ds, .packet .control (.control (dirOf dir) (.named .rxData) data) [])
  | .ctlBofRx dir data => (s.ds, .packet .control (.control (dirOf dir) (.named .bofRx) data) [])
  | .ctlBofTx dir data => (s.ds, .packet .control (.control (dirOf dir) (.named .bofTx) data) [])
  | .ctlUnknown dir v data => (s.ds, .packet .control (.control (dirOf dir) (.unknown v) data) [])
  | .skip => (s.ds, .code none)
  | .carry _ => ((demodCarry s.cfg s.ds).1, .code none)
  | .mark n => ((evaluate s.cfg s.ds true n s.now).1, .code (evaluate s.cfg s.ds true n s.now).2)
  | .space n => ((evaluate s.cfg s.ds false n s.now).1, .code (evaluate s.cfg s.ds false n s.now).2)
  | .encode dir type data => (s.ds, .encoded (encodeRequest dir type data))
  | .getVersion => (s.ds, .encoded (encodeRequest .h2d .version .zero))
  | .rxEnable => (s.ds, .encoded (encodeRequest .h2d .rxEnable .zero))
  | .rxDisable => (s.ds, .encoded (encodeRequest .h2d .rxDisable .zero))

/-- Every instruction writes `ds` and puts out one output, on a present block, and does nothing else. -/
theorem exec_eq (i : Instr) (s : State) :
    exec i s = whenPresent s { s with ds := (effect i s).1, outputs := s.outputs ++ [(effect i s).2] } := by
  cases i <;> rfl

/-- What an instruction that completes has done. -/
theorem exec_next {i : Instr} {s t : State} (h : exec i s = .next t) :
    s.present = true ∧ t = { s with ds := (effect i s).1, outputs := s.outputs ++ [(effect i s).2] } := by
  rw [exec_eq] at h
  exact whenPresent_next.mp h

/-- The five kinds of step, guards included. -/
theorem step_cases {s t : State} (h : step s = .next t) :
    (s.inputs = [] ∧ t = s) ∨
    (∃ rest, s.inputs = .reset :: rest ∧ t = blockReset { s with inputs := rest }) ∨
    (∃ rest, s.inputs = .shutdown :: rest ∧ t = shutdown { s with inputs := rest }) ∨
    (∃ buf now rest st r, s.inputs = .packet buf now :: rest ∧ s.present = true ∧
      ((decodePacket s.cfg buf = .malformed ∧ st = .malformed ∧ r = .malformed) ∨
       (decodePacket s.cfg buf = .short ∧ st = .short ∧ r = .short)) ∧
      t = rejectPacket st r { s with inputs := rest, now := timeIn s.cfg now }) ∨
    (∃ inp rest i now, s.inputs = inp :: rest ∧ s.present = true ∧
      ((∃ buf u, inp = .packet buf u ∧ now = timeIn s.cfg u ∧ decodePacket s.cfg buf = .ok i) ∨
       (∃ b u, inp = .code b u ∧ now = timeIn s.cfg u ∧ decodeCode s.cfg b = i) ∨
       (∃ r, inp = .request r ∧ requestInstr r = i ∧ now = s.now)) ∧
      exec i { s with inputs := rest, now := now } = .next t) := by
  unfold step at h
  match hin : s.inputs with
  | [] => simp only [takeInput, hin, Host.Outcome.next.injEq] at h; exact .inl ⟨rfl, h.symm⟩
  | .reset :: rest =>
    simp only [takeInput, hin, Host.Outcome.next.injEq] at h
    exact .inr (.inl ⟨rest, rfl, h.symm⟩)
  | .shutdown :: rest =>
    simp only [takeInput, hin, Host.Outcome.next.injEq] at h
    exact .inr (.inr (.inl ⟨rest, rfl, h.symm⟩))
  | .packet buf now :: rest =>
    simp only [takeInput, hin, fetchPacket, fetchRejected] at h
    match hd : decodePacket s.cfg buf with
    | .ok i =>
      simp only [hd] at h
      exact .inr (.inr (.inr (.inr ⟨_, rest, i, _, rfl, (exec_next h).1, .inl ⟨buf, now, rfl, rfl, hd⟩, h⟩)))
    | .malformed =>
      simp only [hd] at h
      by_cases hp : s.present = true
      · simp only [hp, if_true, Host.Outcome.next.injEq] at h
        exact .inr (.inr (.inr (.inl ⟨buf, now, rest, _, _, rfl, hp, .inl ⟨hd, rfl, rfl⟩, by rw [← h, hp]⟩)))
      · simp [hp] at h
    | .short =>
      simp only [hd] at h
      by_cases hp : s.present = true
      · simp only [hp, if_true, Host.Outcome.next.injEq] at h
        exact .inr (.inr (.inr (.inl ⟨buf, now, rest, _, _, rfl, hp, .inr ⟨hd, rfl, rfl⟩, by rw [← h, hp]⟩)))
      · simp [hp] at h
  | .code b now :: rest =>
    simp only [takeInput, hin] at h
    exact .inr (.inr (.inr (.inr ⟨_, rest, _, _, rfl, (exec_next h).1, .inr (.inl ⟨b, now, rfl, rfl, rfl⟩), h⟩)))
  | .request r :: rest =>
    simp only [takeInput, hin] at h
    exact .inr (.inr (.inr (.inr ⟨_, rest, _, s.now, rfl, (exec_next h).1, .inr (.inr ⟨r, rfl, rfl, rfl⟩), h⟩)))

end Sys2Proof.Machine
end

