-- ==== Sys2Proof/Tests/Slice0.lean ====
section
/-! SUPPORT. The model's own tests. Expected results come from the spec: the vectors of 95_test_vectors.md by their ids, the
rules' examples, and the encodings of 30_encoding.md. Then one witness per statement that has hypotheses. -/

namespace Sys2Proof.Tests

open Sys2Proof Sys2Proof.Machine

/-! ## Helpers -/

/-- A present block with the defaults, a demodulator state, a time, and what the host presents. -/
def block (ds : DS) (now : Nat) (inputs : List Input) : State :=
  { State.reset with ds := ds, now := now, inputs := inputs }

/-- A receiving state with an empty accumulator. -/
def frameAt (pos : Int) (bits : List Bool) (lastCmd : Option Nat) : DS := ⟨0, true, pos, bits, lastCmd⟩

/-- An idle state. -/
def idleAt (acc : Nat) (lastCmd : Option Nat) : DS := ⟨acc, false, -1, [], lastCmd⟩

/-- `buf=[0,0,1,0,1,0,1]`, the buffer of the Power frame at TERM (95_test_vectors.md L2.4). -/
def powerBits : List Bool := [false, false, true, false, true, false, true]

def dsAfter : Host.Outcome State Fault Refusal → Option DS
  | .next t => some t.ds
  | .fault _ => none
  | .refused _ => none

def outputsAfter : Host.Outcome State Fault Refusal → Option (List Output)
  | .next t => some t.outputs
  | .fault _ => none
  | .refused _ => none

def eventsAfter : Host.Outcome State Fault Refusal → Option (List Event)
  | .next t => some t.events
  | .fault _ => none
  | .refused _ => none

/-! ## WellFormed refuses (one ill-formed term a check) -/

/-- R61: an RXD packet has seven codes. -/
theorem test_wf_refuses_rxd_with_six_codes :
    Instr.wf Config.default (.rxd [1#8, 1#8, 1#8, 1#8, 1#8, 1#8] 7#8) = false := by decide

/-- R66: a carry that reads as the skip byte, in a block with that skip byte. -/
theorem test_wf_refuses_carry_as_skip :
    Instr.wf { Config.default with skipByte := 0x7F#8 } (.carry false) = false := by decide

/-- R65: an RXD packet's first two codes are not both 0x00. -/
theorem test_wf_refuses_rxd_with_two_zero_codes : Instr.wf Config.default (.rxd [0#8, 0#8, 1#8, 1#8, 1#8, 1#8, 1#8] 7#8) = false := by decide

/-- R92: a named type byte is not unknown. -/
theorem test_wf_refuses_named_type_as_unknown : Instr.wf Config.default (.ctlUnknown 0xCD#8 0x31#8 .zero) = false := by decide

/-- R103: 127 units is a carry. -/
theorem test_wf_refuses_mark_of_127 : Instr.wf Config.default (.mark 127#7) = false := by decide

theorem test_wf_refuses_space_of_127 : Instr.wf Config.default (.space 127#7) = false := by decide

/-- R103: 0 units with bit 7 set is a skip. -/
theorem test_wf_refuses_space_of_0 : Instr.wf Config.default (.space 0#7) = false := by decide

/-! ## Decoding: words written out from the spec's encodings -/

/-- 40_packet_codec.md R93, example. -/
theorem test_decode_rxd : decodeTableWord 64 0x709B379B1B9B3707 =
    some (.rxd [0x70#8, 0x9B#8, 0x37#8, 0x9B#8, 0x1B#8, 0x9B#8, 0x37#8] 0x07#8) := by decide

/-- Vector K-19: byte0 = 0x00 and byte1 ≠ 0x00 is RXD. -/
theorem test_decode_rxd_first_byte_zero : decodeTableWord 64 0x00709B3780808004 =
    some (.rxd [0x00#8, 0x70#8, 0x9B#8, 0x37#8, 0x80#8, 0x80#8, 0x80#8] 0x04#8) := by decide

/-- R85, example. -/
theorem test_decode_ctlVersion : decodeTableWord 64 0x0000DC0102000000 =
    some (.ctlVersion 0xDC#8 ⟨0x02#8, 0x00#8, 0x00#8, 0x00#8⟩) := by decide

/-- R86, example. -/
theorem test_decode_ctlRxEnable : decodeTableWord 64 0x0000DC1200000000 = some (.ctlRxEnable 0xDC#8 .zero) := by decide

/-- R87, example. -/
theorem test_decode_ctlRxDisable : decodeTableWord 64 0x0000CD1400000000 = some (.ctlRxDisable 0xCD#8 .zero) := by decide

/-- R89, example. -/
theorem test_decode_ctlRxData : decodeTableWord 64 0x0000DC3012345678 =
    some (.ctlRxData 0xDC#8 ⟨0x12#8, 0x34#8, 0x56#8, 0x78#8⟩) := by decide

/-- R90, example. -/
theorem test_decode_ctlBofRx : decodeTableWord 64 0x0000DC3100000000 = some (.ctlBofRx 0xDC#8 .zero) := by decide

/-- R91, example. -/
theorem test_decode_ctlBofTx : decodeTableWord 64 0x0000DC3200000000 = some (.ctlBofTx 0xDC#8 .zero) := by decide

/-- R92, example, and vector K-17, the packet of zeros. -/
theorem test_decode_ctlUnknown :
    decodeTableWord 64 0x0000CD7E01020304 = some (.ctlUnknown 0xCD#8 0x7E#8 ⟨0x01#8, 0x02#8, 0x03#8, 0x04#8⟩) ∧
    decodeTableWord 64 0 = some (.ctlUnknown 0x00#8 0x00#8 .zero) := by decide

/-- R66, R76: SK, CM, CS. -/
theorem test_decode_skip_and_carry : decodeTableWord 8 0x80 = some .skip ∧
    decodeTableWord 8 0x7F = some (.carry false) ∧ decodeTableWord 8 0xFF = some (.carry true) := by decide

/-- R76: M112 = 0x70; vectors L2.1: 00 is a mark of 0, 7E a mark of 126. -/
theorem test_decode_mark : decodeTableWord 8 0x70 = some (.mark 112#7) ∧ decodeTableWord 8 0x00 = some (.mark 0#7) ∧
    decodeTableWord 8 0x7E = some (.mark 126#7) := by decide

/-- R76: S27 = 0x9B; vectors L2.1: 81 is a space of 1, FE a space of 126. -/
theorem test_decode_space : decodeTableWord 8 0x9B = some (.space 27#7) ∧ decodeTableWord 8 0x81 = some (.space 1#7) ∧
    decodeTableWord 8 0xFE = some (.space 126#7) := by decide

/-- R70: the ENC rows are the host's requests. -/
theorem test_decode_requests :
    decode Config.default (.request (.encode .d2h .bofTx ⟨1#8, 2#8, 3#8, 4#8⟩)) = .ok (.encode .d2h .bofTx ⟨1#8, 2#8, 3#8, 4#8⟩) ∧
    decode Config.default (.request .getVersion) = .ok .getVersion ∧
    decode Config.default (.request .rxEnable) = .ok .rxEnable ∧
    decode Config.default (.request .rxDisable) = .ok .rxDisable := by decide

/-- Vectors K-2, K-6, K-5: seven bytes, nine bytes, and none under PAD_ZERO. -/
theorem test_decode_lengths :
    decodePacket Config.default [0x70#8, 0x9B#8, 0x37#8, 0x9B#8, 0x1B#8, 0x9B#8, 0x37#8] = .short ∧
    decodePacket Config.default [0x70#8, 0x9B#8, 0x37#8, 0x9B#8, 0x1B#8, 0x9B#8, 0x37#8, 0x07#8, 0x00#8] = .malformed ∧
    decodePacket { Config.default with shortPolicy := .padZero } [] = .ok (.ctlUnknown 0x00#8 0x00#8 .zero) := by decide

/-! ## Operands -/

/-- R105's numbers and vectors L2.1, L2.2. -/
theorem test_elapsed : elapsed Config.default 0#7 0 = 22 ∧ elapsed Config.default 27#7 0 = 598 ∧
    elapsed Config.default 126#7 0 = 2709 ∧ elapsed Config.default 27#7 1 = 3329 ∧
    elapsed Config.default 126#7 50 = 139221 ∧ elapsed Config.default 0#7 65535 = 178926301 := by decide

/-- Vectors B-1, B-2, B-9: the first data bit is the least significant. -/
theorem test_parse : parse [false, false, false, false, false, false, true] = 1 ∧
    parse [true, false, false, false, false, false, false] = 64 ∧
    parse [true, true, false, false, true, false, false] = 100 := by decide

/-- R6: LAST_POS = 2 · NBITS − 1. -/
theorem test_lastPos : Config.default.lastPos + 1 = 2 * Config.default.nBits := by decide

/-- R6: a record that breaks one of its conditions is refused. -/
theorem test_config_wf : Config.default.wf = true ∧ Config.wf { Config.default with unitDen := 0 } = false ∧
    Config.wf { Config.default with pktLen := 9 } = false ∧ Config.wf { Config.default with nCodes := 6 } = false ∧
    Config.wf { Config.default with lastPos := 12 } = false := by decide

/-- R6: the parameters are read, not their defaults: another skip byte, another saturation count, five data bits. -/
theorem test_parameters_are_read :
    decodeCode { Config.default with skipByte := 0x00#8 } 0x00#8 = .skip ∧
    decodeCode { Config.default with skipByte := 0x00#8 } 0x80#8 = .space 0#7 ∧
    decodeCode { Config.default with satUnits := 126#7 } 0xFE#8 = .carry true ∧
    (stateRule { Config.default with nBits := 5, lastPos := 9 } (frameAt 9 [true, false, true, false, true] none) false 43 7).2
      = some ⟨21, .power, 7⟩ := by decide

/-- R177: the time input is `TS_W` bits wide. -/
theorem test_timeIn : timeIn Config.default (2 ^ 64 - 1) = 2 ^ 64 - 1 ∧ timeIn Config.default (2 ^ 64 + 5) = 5 ∧
    timeIn { Config.default with tsW := 32 } (2 ^ 32 + 5) = 5 := by decide

/-- R28: sixteen states, two of them the same pair in no case: MARK12 and TERM. -/
theorem test_named_pairs : (NamedState.mark (n := 7) 6).pair = (true, 12) ∧ (NamedState.term (n := 7)).pair = (true, 13) := by decide

/-! ## Instructions, one step each -/

/-- R93's example: SPACE5, bits 1, 0, 1. -/
theorem test_rxd : dsAfter (exec (.rxd [0x70#8, 0x9B#8, 0x37#8, 0x9B#8, 0x1B#8, 0x9B#8, 0x37#8] 7#8) (block DS.reset 5 []))
    = some (frameAt 5 [true, false, true] none) := by decide

/-- Program P1, packet 3: the terminal space after a carry emits Power. -/
theorem test_rxd_emits : eventsAfter (exec (.rxd [0x1B#8, 0xFF#8, 0xA0#8, 0x80#8, 0x80#8, 0x80#8, 0x80#8] 3#8)
    (block (frameAt 12 [false, true, false, true, false, true] none) 1000200 []))
    = some [⟨21, .power, 1000200⟩] := by decide

theorem test_ctlVersion : outputsAfter (exec (.ctlVersion 0xDC#8 ⟨1#8, 2#8, 0#8, 0#8⟩) State.reset)
    = some [.packet .control (.control (.named .d2h) (.named .version) ⟨1#8, 2#8, 0#8, 0#8⟩) []] := by decide

theorem test_ctlRxEnable : outputsAfter (exec (.ctlRxEnable 0xAB#8 .zero) State.reset)
    = some [.packet .control (.control (.unknown 0xAB#8) (.named .rxEnable) .zero) []] := by decide

theorem test_ctlRxDisable : outputsAfter (exec (.ctlRxDisable 0xCD#8 .zero) State.reset)
    = some [.packet .control (.control (.named .h2d) (.named .rxDisable) .zero) []] := by decide

/-- Vector K-12: the data bytes are not pulse codes. -/
theorem test_ctlRxData : dsAfter (exec (.ctlRxData 0xDC#8 ⟨0x70#8, 0x9B#8, 0x37#8, 0x9B#8⟩) State.reset)
    = some DS.reset := by decide

/-- Vector A-5: the accumulator survives an overflow report. -/
theorem test_ctlBofRx : dsAfter (exec (.ctlBofRx 0xDC#8 .zero) (block (idleAt 1 none) 2 []))
    = some (idleAt 1 none) := by decide

theorem test_ctlBofTx : outputsAfter (exec (.ctlBofTx 0xDC#8 ⟨1#8, 2#8, 3#8, 4#8⟩) State.reset)
    = some [.packet .control (.control (.named .d2h) (.named .bofTx) ⟨1#8, 2#8, 3#8, 4#8⟩) []] := by decide

theorem test_ctlUnknown : outputsAfter (exec (.ctlUnknown 0xCD#8 0x7E#8 .zero) State.reset)
    = some [.packet .control (.control (.named .h2d) (.unknown 0x7E#8) .zero) []] := by decide

/-- Vector X-13. -/
theorem test_skip : dsAfter (exec .skip (block (frameAt 13 powerBits none) 2000 []))
    = some (frameAt 13 powerBits none) := by decide

/-- Vectors T-17 and A-3. -/
theorem test_carry : dsAfter (exec (.carry true) (block (frameAt (-1) [] none) 1000 [])) = some ⟨1, true, -1, [], none⟩ ∧
    dsAfter (exec (.carry true) (block (idleAt 65535 none) 1000 [])) = some (idleAt 65535 none) := by decide

/-- Vectors D-3, D-4: the debounce boundary. -/
theorem test_mark_debounce :
    dsAfter (exec (.mark 112#7) (block (idleAt 0 (some 1000000)) 1250000 [])) = some (idleAt 0 (some 1000000)) ∧
    dsAfter (exec (.mark 112#7) (block (idleAt 0 (some 1000000)) 1250001 []))
      = some (frameAt (-1) [] (some 1000000)) := by decide

/-- Vectors T-34, T-37, T-28, Z-2: a 0, a 1, a header length in MARK0, and a mark in TERM. -/
theorem test_mark_in_a_frame :
    dsAfter (exec (.mark 27#7) (block (frameAt 2 [true] none) 1000 [])) = some (frameAt 3 [false, true] none) ∧
    dsAfter (exec (.mark 55#7) (block (frameAt 12 [false, true, false, true, false, true] none) 1000 []))
      = some (frameAt 13 [true, false, true, false, true, false, true] none) ∧
    dsAfter (exec (.mark 112#7) (block (frameAt 0 [] none) 1000 [])) = some DS.reset ∧
    dsAfter (exec (.mark 27#7) (block ⟨1, true, 13, powerBits, some 5000⟩ 9000 []))
      = some (idleAt 0 (some 5000)) := by decide

/-- Vectors T-10, T-12, T-30, T-31. -/
theorem test_space_in_a_frame :
    dsAfter (exec (.space 23#7) (block (frameAt (-1) [] none) 1000 [])) = some (frameAt 0 [] none) ∧
    dsAfter (exec (.space 22#7) (block (frameAt (-1) [] none) 1000 [])) = some DS.reset ∧
    dsAfter (exec (.space 27#7) (block (frameAt 1 [true] none) 1000 [])) = some (frameAt 2 [true] none) ∧
    dsAfter (exec (.space 55#7) (block (frameAt 1 [true] none) 1000 [])) = some DS.reset := by decide

/-- Vector X-1 under both values of TERM13, and X-6. -/
theorem test_space_in_term :
    eventsAfter (exec (.space 27#7) (block (frameAt 13 powerBits none) 2000 [])) = some [⟨21, .power, 2000⟩] ∧
    eventsAfter (exec (.space 27#7)
      { block (frameAt 13 powerBits none) 2000 [] with cfg := { Config.default with term13 := .resetIfInTol } }) = some [] ∧
    dsAfter (exec (.space 1#7) (block (frameAt 13 powerBits none) 2000 [])) = some (idleAt 0 (some 2000)) := by decide

/-- Vector E-7. -/
theorem test_encode : outputsAfter (exec (.encode .d2h .bofTx ⟨1#8, 2#8, 3#8, 4#8⟩) State.reset)
    = some [.encoded [0x00#8, 0x00#8, 0xDC#8, 0x32#8, 0x01#8, 0x02#8, 0x03#8, 0x04#8]] := by decide

/-- R77. -/
theorem test_pseudo_requests :
    outputsAfter (exec .getVersion State.reset)
      = some [.encoded [0x00#8, 0x00#8, 0xCD#8, 0x01#8, 0x00#8, 0x00#8, 0x00#8, 0x00#8]] ∧
    outputsAfter (exec .rxEnable State.reset)
      = some [.encoded [0x00#8, 0x00#8, 0xCD#8, 0x12#8, 0x00#8, 0x00#8, 0x00#8, 0x00#8]] ∧
    outputsAfter (exec .rxDisable State.reset)
      = some [.encoded [0x00#8, 0x00#8, 0xCD#8, 0x14#8, 0x00#8, 0x00#8, 0x00#8, 0x00#8]] := by decide

/-! ## Steps -/

/-- Vectors K-6 and A-6: nine bytes, and the accumulator survives. -/
theorem test_step_malformed :
    let o := step (block (idleAt 1 none) 0 [.packet [0x70#8, 0x9B#8, 0x37#8, 0x9B#8, 0x1B#8, 0x9B#8, 0x37#8, 0x07#8, 0x00#8] 1])
    outputsAfter o = some [.packet .malformed .malformed []] ∧ dsAfter o = some (idleAt 1 none) := by decide

/-- R82's example, and vector K-4 under PAD_ZERO. -/
theorem test_step_short :
    outputsAfter (step (block DS.reset 0 [.packet [0x70#8, 0x9B#8, 0x37#8] 1])) = some [.packet .short .short []] ∧
    outputsAfter (step { block DS.reset 0 [.packet [0x70#8] 1] with cfg := { Config.default with shortPolicy := .padZero } })
      = some [.packet .data (.data [0x70#8, 0#8, 0#8, 0#8, 0#8, 0#8, 0#8] 0#8) []] := by decide

/-- Vector K-21, the discriminator hazard. -/
theorem test_step_discriminator_hazard :
    outputsAfter (step (block DS.reset 0 [.packet [0x00#8, 0x00#8, 0x9B#8, 0x37#8, 0x9B#8, 0x1B#8, 0x9B#8, 0x07#8] 1]))
      = some [.packet .control (.control (.unknown 0x9B#8) (.unknown 0x37#8) ⟨0x9B#8, 0x1B#8, 0x9B#8, 0x07#8⟩) []] := by decide

/-- Vector Z-1. -/
theorem test_step_reset : dsAfter (step (block ⟨1, true, 13, powerBits, some 5000⟩ 0 [.reset])) = some DS.reset := by decide

/-- A table word placed for fetching is the first thing that runs after reset (vector T-1). -/
theorem test_withFetchWord : dsAfter (step (State.reset.withFetchWord 8 0x70)) = some (frameAt (-1) [] none) ∧
    dsAfter (step (State.reset.withFetchWord 64 0x709B379B1B9B3707)) = some (frameAt 5 [true, false, true] none) := by decide

/-! ## Witnesses: states and operands that meet the hypotheses of the statements -/

/-- Eight bytes of a control packet. -/
def versionBytes : List Byte := [0x00#8, 0x00#8, 0xDC#8, 0x01#8, 0x01#8, 0x02#8, 0x00#8, 0x00#8]

/-- The default parameters are well formed: the premise of every statement that asks for it. -/
theorem witness_wf : State.reset.cfg.wf = true ∧ Config.default.wf = true := by decide

/-- The P1 frame's first packet. -/
def dataBytes : List Byte := [0x70#8, 0x9B#8, 0x37#8, 0x9B#8, 0x1B#8, 0x9B#8, 0x37#8, 0x07#8]

theorem witness_BlockResetSetsEveryElement :
    (block (frameAt 13 powerBits none) 1 [.reset]).inputs = .reset :: [] := by decide

theorem witness_ShutdownDiscardsAndStopsTransactions :
    (block (frameAt 3 [true, false] none) 1 [.shutdown]).inputs = .shutdown :: [] ∧
    ({ block DS.reset 1 [.packet versionBytes 2] with present := false } : State).present = false ∧
    step { block DS.reset 1 [.code 0x70#8 2] with present := false } = .fault .blockAbsent ∧
    dsAfter (step { block DS.reset 1 [.reset] with present := false }) = some DS.reset :=
  ⟨by decide, by decide, rfl, by decide⟩

theorem witness_PresentBlockAlwaysCompletes : State.reset.present = true ∧
    (block DS.reset 0 [.request .getVersion]).present = true := by decide

theorem witness_InitAndShutdownSequences :
    (block DS.reset 0 (initSequence ++ [])).inputs = initSequence ++ [] ∧
    (block DS.reset 0 (shutdownSequence ++ [])).inputs = shutdownSequence ++ [] ∧ (block DS.reset 0 []).present = true := by
  decide

theorem witness_DecodeOfEncodeIsTheInstruction :
    Instr.wf Config.default (.rxd [0x00#8, 0x01#8, 0x80#8, 0x80#8, 0x80#8, 0x80#8, 0x80#8] 1#8) = true ∧
    Instr.wf Config.default (.ctlUnknown 0xCD#8 0x7E#8 .zero) = true ∧ Instr.wf Config.default (.mark 126#7) = true ∧ Instr.wf Config.default (.space 1#7) = true := by decide

theorem witness_EncodeOfDecodeIsTheInput : dataBytes.length = 8 := by decide

theorem witness_ControlIffFirstTwoBytesZero : Config.default.wf = true ∧ ((0x00#8 : Byte) = 0#8 ∧ (0x00#8 : Byte) = 0#8) ∧
    ¬((0x00#8 : Byte) = 0#8 ∧ (0x01#8 : Byte) = 0#8) := by decide

theorem witness_DirectionAndTypeOfEveryByte : (0xAB#8 : Byte) ≠ 0xCD#8 ∧ (0xAB#8 : Byte) ≠ 0xDC#8 ∧
    (0x7E#8 : Byte) ∉ [0x01#8, 0x12#8, 0x14#8, 0x30#8, 0x31#8, 0x32#8] := by decide

theorem witness_EveryCodeByteHasOneClass : Config.default.skipByte = 0x80#8 ∧ Config.default.satUnits = 127#7 ∧ (0x80#8 : Byte).toNat = 128 ∧ (0x7F#8 : Byte).toNat = 127 ∧
    (0xFF#8 : Byte).toNat = 255 ∧ (0x7E#8 : Byte).toNat < 127 ∧ 128 < (0x81#8 : Byte).toNat ∧ (0xFE#8 : Byte).toNat < 255 := by decide

theorem witness_StepRunsTheDecodedInstruction :
    (block DS.reset 0 [.packet versionBytes 9]).inputs = .packet versionBytes 9 :: [] ∧
    decodePacket Config.default versionBytes = .ok (.ctlVersion 0xDC#8 ⟨1#8, 2#8, 0#8, 0#8⟩) ∧
    (block DS.reset 0 [.code 0x70#8 9]).inputs = .code 0x70#8 9 :: [] ∧
    (block DS.reset 0 [.request .rxEnable]).inputs = .request .rxEnable :: [] := by decide

theorem witness_PlacedTableWordRunsNext : State.reset.cfg.wf = true ∧ State.reset.cfg.skipByte = 0x80#8 ∧
    State.reset.cfg.satUnits = 127#7 ∧ State.reset.now < 2 ^ State.reset.cfg.tsW ∧
    decodeTableWord 8 0x9B = some (.space 27#7) ∧
    decodeTableWord 64 0x0000DC3100000000 = some (.ctlBofRx 0xDC#8 .zero) := by decide

theorem witness_LongBufferIsMalformed :
    (block DS.reset 0 [.packet (dataBytes ++ [0#8]) 1]).inputs = .packet (dataBytes ++ [0#8]) 1 :: [] ∧
    Config.default.pktLen < (dataBytes ++ [(0#8 : Byte)]).length := by decide

/-- Both policies, at lengths 7 and 0. -/
theorem witness_ShortBufferIsRejectedOrPadded :
    (dataBytes.take 7).length < 8 ∧ ([] : List Byte).length < 8 ∧ State.reset.cfg.shortPolicy = .rejectShort ∧
    ({ State.reset with cfg := { Config.default with shortPolicy := .padZero } } : State).cfg.shortPolicy = .padZero ∧
    decodePacket { Config.default with shortPolicy := .padZero } [0x00#8, 0x70#8] = .ok (.rxd [0x00#8, 0x70#8, 0#8, 0#8, 0#8, 0#8, 0#8] 0#8) := by decide

theorem witness_ControlPacketsCompleteAndKeepState : State.reset.present = true ∧
    (0x7E#8 : Byte) ∉ [0x01#8, 0x12#8, 0x14#8, 0x30#8, 0x31#8, 0x32#8] := by decide

theorem witness_ControlTransactionPassesFieldsThrough :
    (block DS.reset 0 [.packet versionBytes 9]).inputs
      = .packet [0x00#8, 0x00#8, 0xDC#8, 0x01#8, 0x01#8, 0x02#8, 0x00#8, 0x00#8] 9 :: [] := by decide

theorem witness_EncodeProducesEightBytes : State.reset.present = true := by decide

theorem witness_PseudoRequestsExpandToEncode : (block (idleAt 1 none) 7 []).present = true := by decide

theorem witness_RoundTripThroughTheBlock :
    exec (.encode .d2h .version .zero) State.reset
      = .next { State.reset with outputs := [.encoded (encodeRequest .d2h .version .zero)] } := rfl

theorem witness_ReceiverDataDemodulatesAllSevenCodes :
    exec (.rxd [0x01#8, 0x00#8, 0x80#8, 0x80#8, 0x80#8, 0x80#8, 0x80#8] 0#8) State.reset
      = .next { State.reset with
          outputs := [.packet .data (.data [0x01#8, 0x00#8, 0x80#8, 0x80#8, 0x80#8, 0x80#8, 0x80#8] 0#8) []] } := rfl

theorem witness_PacketEqualsItsSevenCodesInOrder : (block (frameAt 12 [] none) 3 []).present = true := by decide

theorem witness_SkipChangesNothing : (block (frameAt 4 [true, false] none) 3 []).present = true := by decide

/-- The saturation clause at its boundary. -/
theorem witness_CarryCountsAndSaturates : (block (idleAt 65535 none) 1 []).cfg = Config.default ∧
    (block (idleAt 65535 none) 1 []).ds.accCnt = 65535 ∧
    dsAfter (exec (.carry false) (block (idleAt 65535 none) 1 [])) = some (idleAt 65535 none) := by decide

theorem witness_ElapsedIsTheSumOfTwoExactCeilings : 0 < Config.default.unitDen ∧ State.reset.present = true := by decide

theorem witness_WindowRangesInUnitCounts : (23#7 : Units) ≠ 127#7 ∧ (31#7 : Units) ≠ 127#7 := by decide

/-- The defaults meet the carry statement's premises: 2753 > 2500. -/
theorem witness_CarryPutsEveryCodeOutsideTheWindows : Config.default.tSpace ≤ Config.default.tHeader ∧
    Config.default.tPulse ≤ Config.default.tHeader ∧
    Config.default.tHeader + Config.default.tol < unitsTime Config.default 0#7 + carryTime Config.default 1 := by decide

/-- Accepted at 250001, suppressed at 250000 and by a mark of 106 units (vectors D-4, D-3, T-4). -/
theorem witness_IdleMarkIsHeaderIffDebouncedAndTimed :
    (idleAt 0 (some 1000000)).receiving = false ∧
    (Config.default.debounce : Int) < (1250001 : Int) - 1000000 ∧
    ¬(Config.default.debounce : Int) < (1250000 : Int) - 1000000 ∧
    inHeaderWindow Config.default (elapsed Config.default 107#7 0) = true ∧
    inHeaderWindow Config.default (elapsed Config.default 106#7 0) = false := by decide

theorem witness_IdleSpaceOnlyClearsAccumulator : (block (idleAt 3 none) 1 []).ds.receiving = false := by decide

/-- The window's two edges, 512 and 683. -/
theorem witness_HeaderSpaceAdvancesToMarkZero : (frameAt (-1) [] none).receiving = true ∧ (frameAt (-1) [] none).bitPos = -1 ∧
    inSpaceWindow Config.default (elapsed Config.default 23#7 0) = true ∧
    inSpaceWindow Config.default (elapsed Config.default 31#7 0) = true := by decide

theorem witness_HeaderSpaceOtherwiseResets : (frameAt (-1) [] none).receiving = true ∧
    inSpaceWindow Config.default (elapsed Config.default 22#7 0) = false ∧
    inSpaceWindow Config.default (elapsed Config.default 32#7 0) = false := by decide

/-- Each clause: 1 at both edges, 0 at both edges, neither, at positions 0 and 12. -/
theorem witness_DataMarkRecordsItsBitOrResets :
    0 ≤ (frameAt 0 [] none).bitPos ∧ (frameAt 12 powerBits none).bitPos ≤ Config.default.lastPos ∧ (frameAt 12 powerBits none).bitPos % 2 = 0 ∧
    inTol Config.default (elapsed Config.default 51#7 0) 1200 = true ∧
    inTol Config.default (elapsed Config.default 59#7 0) 1200 = true ∧
    (inTol Config.default (elapsed Config.default 23#7 0) 1200 = false ∧ inTol Config.default (elapsed Config.default 23#7 0) 600 = true) ∧
    (inTol Config.default (elapsed Config.default 32#7 0) 1200 = false ∧ inTol Config.default (elapsed Config.default 32#7 0) 600 = false) := by
  decide

theorem witness_DataSpaceAdvancesOrResets :
    1 ≤ (frameAt 1 [true] none).bitPos ∧ (frameAt 11 [true] none).bitPos < Config.default.lastPos ∧ (frameAt 11 [true] none).bitPos % 2 = 1 ∧
    inTol Config.default (elapsed Config.default 31#7 0) 600 = true ∧
    inTol Config.default (elapsed Config.default 32#7 0) 600 = false := by decide

/-- Each clause: out of tolerance, in tolerance under either value of TERM13. -/
theorem witness_TerminalSpaceEmitsTheCommand :
    Config.default.wf = true ∧ (frameAt 13 powerBits none).receiving = true ∧
    (frameAt 13 powerBits none).bitPos = Config.default.lastPos ∧
    inTol Config.default (elapsed Config.default 32#7 0) 600 = false ∧ Config.default.term13 = .emitAnySpace ∧
    inTol Config.default (elapsed Config.default 31#7 0) 600 = true ∧
    ({ Config.default with term13 := .resetIfInTol } : Config).term13 = .resetIfInTol := by decide

/-- A legal receiving state, at the middle of a frame. -/
theorem legal_mid_frame : (frameAt 5 [true, false, true] none).Inv Config.default :=
  ⟨by decide, by decide, by decide, by decide, by decide⟩

/-- A mark of 32 units in SPACE5 matches none of the rules. -/
theorem witness_TimingViolationResetsSilently :
    (frameAt 5 [true, false, true] none).Inv Config.default ∧ (frameAt 5 [true, false, true] none).receiving = true ∧
    dsAfter (exec (if true then .mark 32#7 else .space 32#7) (block (frameAt 5 [true, false, true] none) 1 []))
      = some DS.reset ∧
    ¬(frameAt 5 [true, false, true] none).bitPos = -1 ∧ ¬(frameAt 5 [true, false, true] none).bitPos % 2 = 0 :=
  ⟨legal_mid_frame, by decide, by decide, by decide, by decide⟩

theorem witness_ClassificationOfEveryCode : 127 ≠ 0 ∧ 127 ≠ 18 ∧ 127 ≠ 19 ∧ 127 ≠ 20 ∧ 127 ≠ 21 := by decide

theorem witness_ShiftRegisterHoldsTheParsedBuffer : powerBits.length = 7 := by decide

theorem witness_AtMostOneCommandPerPacket : (block (frameAt 13 powerBits none) 2000 []).present = true := by decide

/-- Exactly the debounce time after the last command (vector D-3). -/
theorem witness_DebounceSuppressesTheWholePacket :
    (block (idleAt 0 (some 1000000)) 1250000 []).ds.lastCmd = some 1000000 ∧
    (1250000 : Int) - 1000000 ≤ (Config.default.debounce : Int) := by decide

/-- The Power frame (vector B-8): the bits in time order are 1, 0, 1, 0, 1, 0, 0. -/
def powerSlots : List BitSlot :=
  [⟨true, 55#7, 27#7⟩, ⟨false, 27#7, 27#7⟩, ⟨true, 55#7, 27#7⟩, ⟨false, 27#7, 27#7⟩, ⟨true, 55#7, 27#7⟩, ⟨false, 27#7, 27#7⟩,
    ⟨false, 27#7, 32#7⟩]

theorem powerSlots_fit : FrameFits Config.default 112#7 27#7 powerSlots :=
  ⟨by decide, by decide, by decide, by unfold BitSlot.markFits; decide, by decide⟩

theorem witness_ValidFrameEmitsItsCode : FrameFits Config.default 112#7 27#7 powerSlots ∧ frameCode powerSlots = 21 ∧
    (∀ x ∈ powerSlots, x.space ≠ 0#7 ∧ x.space ≠ 127#7) ∧
    debounceOk Config.default State.reset.ds.lastCmd 0 = true ∧ State.reset.ds.receiving = false ∧
    (block DS.reset 0 (presentCodes id (frameBytes 112#7 27#7 powerSlots) ++ [])).inputs
      = presentCodes id (frameBytes 112#7 27#7 powerSlots) ++ [] :=
  ⟨powerSlots_fit, by decide, by decide, by decide, by decide, rfl⟩

/-- Program P1's three packets: the Power frame with a carry before its terminal space and skips behind it. -/
def powerPackets : DataPacket × DataPacket × DataPacket :=
  (⟨[0x70#8, 0x9B#8, 0x37#8, 0x9B#8, 0x1B#8, 0x9B#8, 0x37#8], 7#8, 1000000⟩,
    ⟨[0x9B#8, 0x1B#8, 0x9B#8, 0x37#8, 0x9B#8, 0x1B#8, 0x9B#8], 7#8, 1000100⟩,
    ⟨[0x1B#8, 0xFF#8, 0xA0#8, 0x80#8, 0x80#8, 0x80#8, 0x80#8], 3#8, 1000200⟩)

/-- P1, and P1 with a mark behind the terminal space in place of a skip. -/
theorem witness_ValidFrameInPacketsEmitsItsCode :
    Config.default = { Config.default with term13 := Config.default.term13 } ∧
    FrameFits Config.default 112#7 27#7 powerSlots ∧
    (∀ x ∈ powerSlots.getLast?, inSpaceWindow Config.default (elapsed Config.default x.space 0) = false) ∧
    (∀ p ∈ powerPackets.1 :: [powerPackets.2.1] ++ [powerPackets.2.2],
      (Instr.rxd p.codes p.declLen).wf Config.default = true) ∧
    liveCodes Config.default [powerPackets.1] ≠ [] ∧
    liveCodes Config.default (powerPackets.1 :: [powerPackets.2.1] ++ [powerPackets.2.2])
      = frameWithGap Config.default 112#7 27#7 powerSlots [true] ++ [] ∧
    liveCodes Config.default (powerPackets.1 :: [powerPackets.2.1] ++
        [{ powerPackets.2.2 with codes := [0x1B#8, 0xFF#8, 0xA0#8, 0x80#8, 0x70#8, 0x80#8, 0x80#8] }])
      = frameWithGap Config.default 112#7 27#7 powerSlots [true] ++ [0x70#8] ∧
    (liveCodes Config.default (powerPackets.1 :: [powerPackets.2.1])).length
      < (frameWithGap Config.default 112#7 27#7 powerSlots [true]).length :=
  ⟨by decide, powerSlots_fit, by decide, by decide, by decide, by decide, by decide, by decide⟩

/-- A legal state with a packet presented, from which a step goes on. -/
theorem witness_EveryStepKeepsTheInvariant : (block (frameAt 5 [true, false, true] none) 1 [.packet dataBytes 2]).Inv ∧
    (dsAfter (step (block (frameAt 5 [true, false, true] none) 1 [.packet dataBytes 2]))).isSome = true :=
  ⟨⟨by decide, legal_mid_frame, by decide, fun _ h => (nomatch h), fun _ h => nomatch h⟩, by decide⟩

/-- A receiving state 300000 µs after its last command, TERM, with the terminal space presented. -/
def spacedState : State := block (frameAt 13 powerBits (some 1000000)) 1300000 [.code 0x9B#8 1300100]

theorem spacedState_spaced : spacedState.Spaced :=
  ⟨⟨by decide, trivial⟩, fun t h => by cases h; decide, fun t h _ => by cases h; decide⟩

theorem witness_EveryStepKeepsTheSpacing : spacedState.Spaced ∧
    dsAfter (step spacedState) = some (idleAt 0 (some 1300100)) := ⟨spacedState_spaced, by decide⟩

theorem witness_CommandsAreMoreThanTheDebounceApart : spacedState.Spaced ∧
    eventsAfter (step spacedState) = some [⟨21, .power, 1300100⟩] := ⟨spacedState_spaced, by decide⟩

theorem witness_LegalStateHasOneName : DS.reset.Inv Config.default ∧ (frameAt 5 [true, false, true] none).Inv Config.default :=
  ⟨⟨by decide, by decide, by decide, by decide, by decide⟩, legal_mid_frame⟩

theorem witness_InstructionFrame :
    exec (.ctlBofRx 0xDC#8 .zero) State.reset = .next { State.reset with
      outputs := [.packet .control (.control (.named .d2h) (.named .bofRx) .zero) []] } := rfl

theorem witness_NoStepWritesParametersOrPastOutputs : step State.reset = .next State.reset := rfl

theorem witness_LastCommandChangesOnlyWithAnEvent :
    dsAfter (step (block (frameAt 13 powerBits none) 1 [.code 0x9B#8 2000])) = some (idleAt 0 (some 2000)) := by decide

theorem witness_OnlyReceiverDataTouchesTheFrame :
    decodePacket Config.default versionBytes = .ok (.ctlVersion 0xDC#8 ⟨1#8, 2#8, 0#8, 0#8⟩) ∧
    dsAfter (step (block (frameAt 3 [true, false] none) 1 [.packet versionBytes 2])) = some (frameAt 3 [true, false] none) := by
  decide

theorem witness_EncodeRequestsCommuteWithPackets : (block (frameAt 3 [true, false] none) 1 []).present = true := by decide

theorem witness_ResultDependsOnTheBytesAlone :
    (block DS.reset 1 [.packet dataBytes 2]).inputs = .packet dataBytes 2 :: [] ∧
    (block (frameAt 3 [true, false] none) 1 [.packet dataBytes 5]).inputs = .packet dataBytes 5 :: [] ∧
    (block DS.reset 1 []).cfg = (block (frameAt 3 [true, false] none) 1 []).cfg := by decide

theorem witness_StepSeesOnlyTheHeadOfTheStream :
    (block DS.reset 1 [.packet dataBytes 2, .reset]).inputs = .packet dataBytes 2 :: [.reset] ∧
    (dsAfter (step (block DS.reset 1 [.packet dataBytes 2, .reset]))).isSome = true := by decide

/-- A frame in progress, and an idle block before any command. -/
theorem witness_TimeIsReadOnlyByDebounceAndEmit : (frameAt 5 [true, false, true] (some 7)).receiving = true ∧
    (frameAt 5 [true, false, true] (some 7)).bitPos ≠ Config.default.lastPos ∧ DS.reset.lastCmd = none ∧
    DS.reset.bitPos ≠ Config.default.lastPos ∧
    (frameAt 5 [true, false, true] none).Inv Config.default ∧
    (dsAfter (exec (decodeCode Config.default 0x9B#8) (block (frameAt 5 [true, false, true] none) 1 []))).isSome = true :=
  ⟨by decide, by decide, by decide, by decide, legal_mid_frame, by decide⟩

end Sys2Proof.Tests
end

section
/-! SUPPORT. Proofs of the statements about the encodings (30_encoding.md R60-R77). -/

namespace Sys2Proof

/-! ### The two field bytes of a control packet -/

theorem dirOf_eq_named_iff (v : Byte) (d : NamedDir) : dirOf v = .named d ↔ v = dirCode d := by
  constructor
  · intro h
    unfold dirOf at h
    split_ifs at h <;> cases h <;> assumption
  · rintro rfl
    exact dirOf_dirCode d

theorem dirOf_eq_unknown {v : Byte} (hH2D : v ≠ 0xCD#8) (hD2H : v ≠ 0xDC#8) : dirOf v = .unknown v := by
  simp [dirOf, hH2D, hD2H]

theorem typeOf_eq_named_iff (v : Byte) (t : NamedType) : typeOf v = .named t ↔ v = typeCode t := by
  constructor
  · intro h
    unfold typeOf at h
    split_ifs at h <;> cases h <;> assumption
  · rintro rfl
    exact typeOf_typeCode t

theorem typeOf_eq_unknown {v : Byte} (h : v ∉ [0x01#8, 0x12#8, 0x14#8, 0x30#8, 0x31#8, 0x32#8]) :
    typeOf v = .unknown v := by
  simp only [List.mem_cons, List.not_mem_nil, or_false, not_or] at h
  simp [typeOf, h]

/-! ### The 64-bit view of a packet -/

theorem append_eq_zero_iff {m n : Nat} (x : BitVec m) (y : BitVec n) : x ++ y = 0#(m + n) ↔ x = 0#m ∧ y = 0#n := by
  constructor
  · intro h
    have hx : x = 0#m := by
      rw [← BitVec.extractLsb'_append_eq_left (a := x) (b := y), h, BitVec.extractLsb'_zero]
    rw [hx, ← BitVec.zero_append_zero, BitVec.append_right_inj] at h
    exact ⟨hx, h⟩
  · rintro ⟨rfl, rfl⟩
    exact BitVec.zero_append_zero

/-- A part under a zero mask does not matter. -/
theorem and_append_zero_eq_zero_iff {m n : Nat} (x mask : BitVec m) (y : BitVec n) :
    (x ++ y) &&& (mask ++ 0#n) = 0#(m + n) ↔ x &&& mask = 0#m := by
  simp [BitVec.and_append, append_eq_zero_iff]

/-- The mask of R65 keeps the first two bytes, byte0 being the most significant (20_memory.md R42). -/
theorem firstTwoBytesMask_eq_zero_iff (b0 b1 b2 b3 b4 b5 b6 b7 : Byte) :
    (b0 ++ b1 ++ b2 ++ b3 ++ b4 ++ b5 ++ b6 ++ b7 : BitVec 64) &&& 0xFFFF000000000000#64 = 0#64 ↔
      b0 = 0#8 ∧ b1 = 0#8 := by
  have hmask : 0xFFFF000000000000#64 =
      255#8 ++ 255#8 ++ 0#8 ++ 0#8 ++ 0#8 ++ 0#8 ++ 0#8 ++ 0#8 := by decide
  rw [hmask]
  iterate 6 rw [and_append_zero_eq_zero_iff]
  rw [BitVec.and_append, Laws.TableRow.and_ones, Laws.TableRow.and_ones, append_eq_zero_iff]

/-! ### Pulse codes by their number -/

theorem toNat_codeByte (s : Bool) (n : Units) : (codeByte s n).toNat = 128 * s.toNat + n.toNat := by
  revert s n; decide

/-- The fields of a byte, from its number. -/
theorem eq_codeByte_of_toNat {b : Byte} (s : Bool) {k : Nat} (hk : k < 128) (h : b.toNat = 128 * s.toNat + k) :
    b = codeByte s (BitVec.ofNat 7 k) := by
  apply BitVec.eq_of_toNat_eq
  rw [toNat_codeByte, BitVec.toNat_ofNat, Nat.mod_eq_of_lt hk, h]

/-- Counts of seven bits are told apart by their numbers. -/
theorem units_ofNat_inj {j k : Nat} (hj : j < 128) (hk : k < 128) : BitVec.ofNat 7 j = BitVec.ofNat 7 k ↔ j = k := by
  rw [← BitVec.toNat_inj, BitVec.toNat_ofNat, BitVec.toNat_ofNat, Nat.mod_eq_of_lt hj, Nat.mod_eq_of_lt hk]

/-- R66 with the default skip byte and saturation count, on the number of a byte. -/
theorem classOf_of_toNat {cfg : Config} (hskip : cfg.skipByte = 0x80#8) (hsat : cfg.satUnits = 127#7) {b : Byte}
    (s : Bool) {k : Nat} (hk : k < 128) (h : b.toNat = 128 * s.toNat + k) :
    classOf cfg b =
      if s = true ∧ k = 0 then .skip
      else if k = 127 then .carry s
      else if s = false then .mark (BitVec.ofNat 7 k)
      else .space (BitVec.ofNat 7 k) := by
  have hzero : BitVec.ofNat 7 k = 0#7 ↔ k = 0 := units_ofNat_inj hk (by decide)
  have hfull : BitVec.ofNat 7 k = 127#7 ↔ k = 127 := units_ofNat_inj hk (by decide)
  rw [eq_codeByte_of_toNat s hk h, classOf_codeByte, hskip, hsat]
  simp only [codeByte_eq_skipByte, hzero, hfull]

end Sys2Proof

namespace Sys2Proof.Machine

/-! ### Outbound requests -/

theorem exec_encode (s : State) (hp : s.present = true) (dir : NamedDir) (type : NamedType) (data : Data4) :
    exec (.encode dir type data) s =
      .next { s with outputs := s.outputs ++ [.encoded (encodeRequest dir type data)] } := by
  rw [exec_eq, whenPresent_present hp]
  rfl

theorem exec_getVersion (s : State) : exec .getVersion s = exec (.encode .h2d .version .zero) s := rfl

theorem exec_rxEnable (s : State) : exec .rxEnable s = exec (.encode .h2d .rxEnable .zero) s := rfl

theorem exec_rxDisable (s : State) : exec .rxDisable s = exec (.encode .h2d .rxDisable .zero) s := rfl

end Sys2Proof.Machine

namespace Sys2Proof

/-! ### The obligations -/

/-- Settles O9: the decoder's two branches on eight bytes, and the mask that reads the first two. -/
theorem controlIffFirstTwoBytesZero : Obligations.ControlIffFirstTwoBytesZero := by
  unfold Obligations.ControlIffFirstTwoBytesZero
  intro cfg b0 b1 b2 b3 b4 b5 b6 b7 hc
  refine ⟨fun hzero => ?_, fun hzero => ?_, firstTwoBytesMask_eq_zero_iff b0 b1 b2 b3 b4 b5 b6 b7⟩
  · rw [decodePacket_eight cfg hc, if_pos hzero, decodeControl]
  · rw [decodePacket_eight cfg hc, if_neg hzero]

/-- Settles O10: each field byte is named exactly by its code, else unknown. -/
theorem directionAndTypeOfEveryByte : Obligations.DirectionAndTypeOfEveryByte := by
  unfold Obligations.DirectionAndTypeOfEveryByte
  intro v
  exact ⟨dirOf_eq_named_iff v .h2d, dirOf_eq_named_iff v .d2h, dirOf_eq_unknown,
    typeOf_eq_named_iff v .version, typeOf_eq_named_iff v .rxEnable, typeOf_eq_named_iff v .rxDisable,
    typeOf_eq_named_iff v .rxData, typeOf_eq_named_iff v .bofRx, typeOf_eq_named_iff v .bofTx, typeOf_eq_unknown⟩

/-- Settles O11: the number of a byte gives its two fields, and the fields give its class. -/
theorem everyCodeByteHasOneClass : Obligations.EveryCodeByteHasOneClass := by
  unfold Obligations.EveryCodeByteHasOneClass
  intro cfg b hskip hsat
  refine ⟨fun h => ?skip, fun h => ?carryMark, fun h => ?carrySpace, fun h => ?mark, fun hlo hhi => ?space⟩
  case skip => exact classOf_of_toNat hskip hsat true (k := 0) (by decide) h
  case carryMark => exact classOf_of_toNat hskip hsat false (k := 127) (by decide) h
  case carrySpace => exact classOf_of_toNat hskip hsat true (k := 127) (by decide) h
  case mark =>
    rw [classOf_of_toNat hskip hsat false (k := b.toNat) (by omega) (by simp)]
    simp [h.ne]
  case space =>
    have hnum : b.toNat = 128 * true.toNat + (b.toNat - 128) := by simp only [Bool.toNat_true]; omega
    have hzero : b.toNat - 128 ≠ 0 := by omega
    have hfull : b.toNat - 128 ≠ 127 := by omega
    rw [classOf_of_toNat hskip hsat true (by omega) hnum]
    simp [hzero, hfull]

/-- Settles O19: each pseudo-instruction is its request, and the request's bytes are those of R77. -/
theorem pseudoRequestsExpandToEncode : Obligations.PseudoRequestsExpandToEncode := by
  unfold Obligations.PseudoRequestsExpandToEncode
  intro s hp
  have hencode := fun type => Machine.exec_encode s hp .h2d type .zero
  exact ⟨⟨Machine.exec_getVersion s, hencode .version⟩, ⟨Machine.exec_rxEnable s, hencode .rxEnable⟩,
    ⟨Machine.exec_rxDisable s, hencode .rxDisable⟩⟩

end Sys2Proof
end

section
/-! SUPPORT. Proofs of the statements about the packet codec (40_packet_codec.md R80-R94). -/

namespace Sys2Proof

/-! ### The CTL rows -/

theorem decodeControl_unknown {v : Byte} (h : v ∉ [0x01#8, 0x12#8, 0x14#8, 0x30#8, 0x31#8, 0x32#8]) (dir : Byte)
    (data : Data4) : decodeControl dir v data = .ctlUnknown dir v data := by
  simp only [List.mem_cons, List.not_mem_nil, or_false, not_or] at h
  simp [decodeControl, h]

theorem decodeControl_ne_rxd (dir type : Byte) (data : Data4) (codes : Codes) (declLen : Byte) :
    decodeControl dir type data ≠ .rxd codes declLen := by
  unfold decodeControl
  split_ifs <;> nofun

/-- R65 on a buffer of any length. -/
theorem decodeFields_eq_rxd_iff (cfg : Config) (buf : List Byte) :
    (∃ codes declLen, decodeFields cfg buf = .rxd codes declLen) ↔ ¬(byteAt buf 0 = 0#8 ∧ byteAt buf 1 = 0#8) := by
  unfold decodeFields
  split_ifs with hzero
  · simp [decodeControl_ne_rxd, hzero]
  · simp [hzero]

/-! ### Padding with zeros -/

/-- A byte beyond the buffer reads as 0x00 whether it is padded or missing. -/
theorem byteAt_append_zeros (buf : List Byte) (n i : Nat) : byteAt (buf ++ List.replicate n 0#8) i = byteAt buf i := by
  unfold byteAt
  rcases lt_or_ge i buf.length with hi | hi
  · rw [List.getD_append _ _ _ _ hi]
  · rw [List.getD_append_right _ _ _ _ hi, List.getD_eq_default _ _ hi, List.getD_eq_getElem?_getD,
      List.getElem?_getD_replicate_default_eq]

/-- Padding before presentation is what `PAD_ZERO` does itself. -/
theorem decodePacket_append_zeros (cfg : Config) (buf : List Byte) (h : buf.length < cfg.pktLen)
    (hp : cfg.shortPolicy = .padZero) :
    decodePacket cfg (buf ++ List.replicate (cfg.pktLen - buf.length) 0#8) = decodePacket cfg buf := by
  have hlen : (buf ++ List.replicate (cfg.pktLen - buf.length) 0#8).length = cfg.pktLen := by
    simp only [List.length_append, List.length_replicate]
    omega
  rw [decodePacket_exact cfg _ hlen, decodePacket_pad cfg buf h hp]

/-- A padded buffer is receiver data iff one of its own first two bytes is non-zero. -/
theorem decodePacket_pad_eq_rxd_iff (cfg : Config) (buf : List Byte) (h : buf.length < cfg.pktLen)
    (hp : cfg.shortPolicy = .padZero) :
    (∃ codes declLen, decodePacket cfg buf = .ok (.rxd codes declLen)) ↔ ∃ k, k < 2 ∧ byteAt buf k ≠ 0#8 := by
  simp only [decodePacket_pad cfg buf h hp, Decoded.ok.injEq, decodeFields_eq_rxd_iff, byteAt_append_zeros,
    Nat.exists_lt_succ_left, not_and_or, Nat.not_lt_zero, false_and, exists_false, or_false]

end Sys2Proof

namespace Sys2Proof.Machine

/-! ### Instructions on a present block -/

theorem exec_present {s : State} (hp : s.present = true) (i : Instr) :
    exec i s = .next { s with ds := (effect i s).1, outputs := s.outputs ++ [(effect i s).2] } := by
  rw [exec_eq, whenPresent_present hp]

theorem exec_next_ds {i : Instr} {s t : State} (h : exec i s = .next t) : t.ds = (effect i s).1 := by
  obtain ⟨-, rfl⟩ := exec_next h
  rfl

theorem exec_next_events {i : Instr} {s t : State} (h : exec i s = .next t) :
    t.events = s.events ++ (effect i s).2.events := by
  obtain ⟨-, rfl⟩ := exec_next h
  exact events_append s _ _ rfl

/-- All CTL rows have one effect, in which the type byte is read by `typeOf` (R84). -/
theorem effect_decodeControl (dir type : Byte) (data : Data4) (s : State) :
    effect (decodeControl dir type data) s =
      (s.ds, .packet .control (.control (dirOf dir) (typeOf type) data) []) := by
  unfold decodeControl typeOf
  split_ifs <;> rfl

/-! ### Packet transactions -/

section PacketTransaction

variable {s : State} {buf : List Byte} {now : Nat} {rest : List Input}

theorem step_packet_ok (hin : s.inputs = .packet buf now :: rest) {i : Instr} (hd : decodePacket s.cfg buf = .ok i) :
    step s = exec i { s with inputs := rest, now := timeIn s.cfg now } := by
  simp only [step, takeInput, hin, fetchPacket, hd]

theorem step_packet_malformed (hp : s.present = true) (hin : s.inputs = .packet buf now :: rest)
    (hd : decodePacket s.cfg buf = .malformed) :
    step s = .next (rejectPacket .malformed .malformed { s with inputs := rest, now := timeIn s.cfg now }) := by
  simp only [step, takeInput, hin, fetchPacket, hd, fetchRejected, hp, if_true]

theorem step_packet_short (hp : s.present = true) (hin : s.inputs = .packet buf now :: rest)
    (hd : decodePacket s.cfg buf = .short) :
    step s = .next (rejectPacket .short .short { s with inputs := rest, now := timeIn s.cfg now }) := by
  simp only [step, takeInput, hin, fetchPacket, hd, fetchRejected, hp, if_true]

end PacketTransaction

end Sys2Proof.Machine

namespace Sys2Proof

open Machine

/-! ### The obligations -/

/-- Settles O15: a short buffer is rejected, or decodes to what its padding with zeros decodes to. -/
theorem shortBufferIsRejectedOrPadded : Obligations.ShortBufferIsRejectedOrPadded := by
  unfold Obligations.ShortBufferIsRejectedOrPadded
  intro s buf now rest hp hc hin hlen
  obtain ⟨-, h8, -, -⟩ := s.cfg.wf_iff.mp hc
  have hshort : buf.length < s.cfg.pktLen := by rwa [h8]
  refine ⟨fun hreject => ⟨?reject, rfl⟩, fun hpad => ⟨?pad, decodePacket_pad_eq_rxd_iff s.cfg buf hshort hpad⟩⟩
  case reject => exact step_packet_short hp hin (decodePacket_short s.cfg buf hshort hreject)
  case pad =>
    have hown := decodePacket_pad s.cfg buf hshort hpad
    have hpadded := (decodePacket_append_zeros s.cfg buf hshort hpad).trans hown
    rw [h8] at hown hpadded
    rw [step_packet_ok hin hown]
    symm
    exact step_packet_ok rfl hpadded

/-- Settles O17: the packet reaches the CTL rows, whose effect reads the two field bytes by `dirOf` and `typeOf`. -/
theorem controlTransactionPassesFieldsThrough : Obligations.ControlTransactionPassesFieldsThrough := by
  unfold Obligations.ControlTransactionPassesFieldsThrough
  intro s dir ty d now rest hp hc hin
  have hd : decodePacket s.cfg [0x00#8, 0x00#8, dir, ty, d.d0, d.d1, d.d2, d.d3] = .ok (decodeControl dir ty d) :=
    decodePacket_controlBytes s.cfg hc dir ty d
  rw [step_packet_ok hin hd, exec_present, effect_decodeControl]
  · rfl
  · exact hp

/-- Settles O14: the length check comes before any row. -/
theorem longBufferIsMalformed : Obligations.LongBufferIsMalformed := by
  unfold Obligations.LongBufferIsMalformed
  intro s buf now rest hp hin hlen
  exact ⟨step_packet_malformed hp hin (decodePacket_long s.cfg buf hlen), rfl, rfl⟩

/-- Settles O16: row by row, the effect of the instruction and the type byte that selects it. -/
theorem controlPacketsCompleteAndKeepState : Obligations.ControlPacketsCompleteAndKeepState := by
  unfold Obligations.ControlPacketsCompleteAndKeepState
  intro s dir v d cfg hp hc
  have hdecode : ∀ type, decodePacket cfg [0x00#8, 0x00#8, dir, type, d.d0, d.d1, d.d2, d.d3] =
      .ok (decodeControl dir type d) := fun type => decodePacket_controlBytes cfg hc dir type d
  refine ⟨⟨exec_present hp _, hdecode 0x01#8⟩, ⟨exec_present hp _, hdecode 0x12#8⟩,
    ⟨exec_present hp _, hdecode 0x14#8⟩, ⟨exec_present hp _, hdecode 0x30#8⟩, ⟨exec_present hp _, hdecode 0x31#8⟩,
    ⟨exec_present hp _, hdecode 0x32#8⟩, ⟨exec_present hp _, fun hv => ?_⟩⟩
  rw [hdecode, decodeControl_unknown hv]

/-- Settles O18: the request's bytes in the CTL format, with the direction and type bytes of the tables. -/
theorem encodeProducesEightBytes : Obligations.EncodeProducesEightBytes := by
  unfold Obligations.EncodeProducesEightBytes
  intro s dir ty d hp
  exact ⟨exec_encode s hp dir ty d, rfl⟩

/-- Settles O21: the declared length goes to the output's result, and neither to `ds` nor to the events. -/
theorem receiverDataDemodulatesAllSevenCodes : Obligations.ReceiverDataDemodulatesAllSevenCodes := by
  unfold Obligations.ReceiverDataDemodulatesAllSevenCodes
  intro s codes len hp
  refine ⟨exec_present hp _, fun t ht len' => ?_⟩
  have ht' := exec_present hp (.rxd codes len')
  refine ⟨_, ht', ?ds, ?events⟩
  case ds => rw [exec_next_ds ht]; rfl
  case events => rw [exec_next_events ht', exec_next_events ht]; rfl

end Sys2Proof
end

section
/-! SUPPORT. Proofs of the statements about the pulse demodulator: the code classes, the elapsed duration, the windows and
the state rules (41_pulse_demodulator.md R100-R122). -/

namespace Sys2Proof

theorem decodeCode_eq_carry_iff (cfg : Config) (b : Byte) (sp : Bool) :
    decodeCode cfg b = .carry sp ↔ b ≠ cfg.skipByte ∧ unitsOf b = cfg.satUnits ∧ spaceFlag b = sp := by
  unfold decodeCode classOf
  split_ifs <;> simp_all [classInstr]

/-- The two bytes of 127 units, neither of them the default skip byte. -/
theorem unitsOf_eq_full_iff (b : Byte) : b ≠ 0x80#8 ∧ unitsOf b = 127#7 ↔ b = 0x7F#8 ∨ b = 0xFF#8 := by
  revert b; decide

end Sys2Proof

namespace Sys2Proof.Machine

/-! ### Durations and windows -/

/-- `ceilDiv` is the ceiling of R9 over the rationals. -/
theorem ceilDiv_eq_ceil (p : Nat) {d : Nat} (hd : 0 < d) : (ceilDiv p d : Int) = ⌈(p : ℚ) / d⌉ := by
  obtain ⟨hle, hlt⟩ := ceilDiv_spec p d hd
  have hd' : (0 : ℚ) < d := by exact_mod_cast hd
  symm
  rw [Int.ceil_eq_iff, lt_div_iff₀ hd', div_le_iff₀ hd', sub_mul, one_mul, sub_lt_iff_lt_add]
  exact ⟨by exact_mod_cast hlt, by exact_mod_cast hle⟩

/-- R106 as the rule writes it. -/
theorem inTol_iff_abs (cfg : Config) (e ref : Nat) :
    inTol cfg e ref = true ↔ |(e : Int) - (ref : Int)| ≤ (cfg.tol : Int) := by
  rw [inTol_iff, abs_le]
  omega

/-- R111: the debounce is a condition on the last command, if there is one. -/
theorem debounceOk_iff (cfg : Config) (lastCmd : Option Nat) (now : Nat) :
    debounceOk cfg lastCmd now = true ↔
      ∀ l, lastCmd = some l → (cfg.debounce : Int) < (now : Int) - (l : Int) := by
  cases lastCmd with
  | none => simp [debounceOk_none]
  | some t =>
    simp only [debounceOk_some, Option.some.injEq, forall_eq']
    omega

/-! ### The state dispatch, one equation per kind of named state (10_state.md R28) -/

section Dispatch

variable {cfg : Config} {ds : DS} {p : Bool} {n : Units} {now : Nat}

theorem evaluate_idle (hr : ds.receiving = false) :
    evaluate cfg ds p n now = (ruleIdle cfg (clearAcc ds) p (elapsed cfg n ds.accCnt) now, none) := by
  simp [evaluate, stateRule, hr]

theorem evaluate_headerSpace (hr : ds.receiving = true) (hpos : ds.bitPos = -1) :
    evaluate cfg ds p n now = (ruleHeaderSpace cfg (clearAcc ds) p (elapsed cfg n ds.accCnt), none) := by
  simp [evaluate, stateRule, hr, hpos]

theorem evaluate_dataMark (hr : ds.receiving = true) (heven : ds.bitPos % 2 = 0) :
    evaluate cfg ds p n now = (ruleDataMark cfg (clearAcc ds) p (elapsed cfg n ds.accCnt), none) := by
  have hbody : ds.bitPos ≠ -1 := by omega
  simp [evaluate, stateRule, hr, hbody, heven]

theorem evaluate_dataSpace (hr : ds.receiving = true) (hpos : 0 ≤ ds.bitPos) (hlast : ds.bitPos < cfg.lastPos)
    (hodd : ds.bitPos % 2 = 1) :
    evaluate cfg ds p n now = (ruleDataSpace cfg (clearAcc ds) p (elapsed cfg n ds.accCnt), none) := by
  have hbody : ds.bitPos ≠ -1 := by omega
  simp [evaluate, stateRule, hr, hbody, hodd, hlast]

theorem evaluate_term (hc : cfg.wf = true) (hr : ds.receiving = true) (hpos : ds.bitPos = cfg.lastPos) :
    evaluate cfg ds p n now = ruleTerm cfg (clearAcc ds) p (elapsed cfg n ds.accCnt) now := by
  obtain ⟨-, -, -, hlast⟩ := cfg.wf_iff.mp hc
  have hbody : (cfg.lastPos : Int) ≠ -1 := by omega
  have hodd : (cfg.lastPos : Int) % 2 = 1 := by omega
  simp [evaluate, stateRule, hr, hpos, hbody, hodd]

end Dispatch

/-! ### The state rules, one equation per outcome -/

section Rules

variable {cfg : Config} {ds : DS} {e now : Nat}

theorem ruleIdle_header (hd : debounceOk cfg ds.lastCmd now = true) (he : inHeaderWindow cfg e = true) :
    ruleIdle cfg ds true e now = { ds with receiving := true, bitPos := -1 } := by
  simp [ruleIdle, hd, he]

theorem ruleIdle_not_header (h : ¬(debounceOk cfg ds.lastCmd now = true ∧ inHeaderWindow cfg e = true)) :
    ruleIdle cfg ds true e now = ds := by
  simp [ruleIdle, h]

theorem ruleHeaderSpace_advances (he : inSpaceWindow cfg e = true) :
    ruleHeaderSpace cfg ds false e = { ds with bitPos := 0 } := by
  simp [ruleHeaderSpace, he]

theorem ruleDataMark_one (he : inPulseWindow cfg e = true) : ruleDataMark cfg ds true e = pushBit ds true := by
  simp [ruleDataMark, he]

theorem ruleDataMark_zero (hp : inPulseWindow cfg e = false) (he : inSpaceWindow cfg e = true) :
    ruleDataMark cfg ds true e = pushBit ds false := by
  simp [ruleDataMark, hp, he]

theorem ruleDataMark_neither (hp : inPulseWindow cfg e = false) (he : inSpaceWindow cfg e = false) :
    ruleDataMark cfg ds true e = protocolReset ds := by
  simp [ruleDataMark, hp, he]

theorem ruleDataMark_space : ruleDataMark cfg ds false e = protocolReset ds := rfl

theorem ruleDataSpace_advances (he : inSpaceWindow cfg e = true) : ruleDataSpace cfg ds false e = advance ds := by
  simp [ruleDataSpace, he]

theorem ruleDataSpace_outside (he : inSpaceWindow cfg e = false) :
    ruleDataSpace cfg ds false e = protocolReset ds := by
  simp [ruleDataSpace, he]

theorem ruleDataSpace_mark : ruleDataSpace cfg ds true e = protocolReset ds := rfl

theorem ruleTerm_mark : ruleTerm cfg ds true e now = (protocolReset ds, none) := rfl

theorem ruleTerm_emits (h : inSpaceWindow cfg e = false ∨ cfg.term13 = .emitAnySpace) :
    ruleTerm cfg ds false e now = (protocolReset (emitCommand ds now), some (emitEvent ds now)) := by
  rcases h with h | h <;> simp [ruleTerm, h]

theorem ruleTerm_suppresses (he : inSpaceWindow cfg e = true) (h : cfg.term13 = .resetIfInTol) :
    ruleTerm cfg ds false e now = (protocolReset ds, none) := by
  simp [ruleTerm, he, h]

end Rules

/-- A code that resets leaves the reset values of R190 and the last command. -/
theorem protocolReset_clearAcc (ds : DS) : protocolReset (clearAcc ds) = { DS.reset with lastCmd := ds.lastCmd } := rfl

/-- No rule writes the accumulator. -/
theorem stateRule_accCnt (cfg : Config) (ds : DS) (p : Bool) (e now : Nat) :
    (stateRule cfg ds p e now).1.accCnt = ds.accCnt := by
  rcases stateRule_cases cfg ds p e now with
    ⟨-, h⟩ | ⟨-, -, -, -, h⟩ | ⟨-, h⟩ | ⟨-, -, -, -, h⟩ | ⟨-, -, -, -, ⟨-, h⟩ | ⟨-, h⟩⟩ | ⟨-, -, -, -, -, -, h⟩ |
      ⟨-, -, -, -, -, h⟩ <;>
    simp [h]

/-- The accumulator is cleared whatever the rule does afterwards (R105). -/
theorem evaluate_accCnt (cfg : Config) (ds : DS) (p : Bool) (n : Units) (now : Nat) :
    (evaluate cfg ds p n now).1.accCnt = 0 :=
  stateRule_accCnt cfg (clearAcc ds) p _ now

/-! ### Pulse codes on a present block -/

section PulseCodes

variable {s : State} {n : Units} {ds : DS} {ev : Option Event}

theorem exec_mark (hp : s.present = true) (h : evaluate s.cfg s.ds true n s.now = (ds, ev)) :
    exec (.mark n) s = .next { s with ds := ds, outputs := s.outputs ++ [.code ev] } := by
  rw [exec_present hp, effect, h]

theorem exec_space (hp : s.present = true) (h : evaluate s.cfg s.ds false n s.now = (ds, ev)) :
    exec (.space n) s = .next { s with ds := ds, outputs := s.outputs ++ [.code ev] } := by
  rw [exec_present hp, effect, h]

end PulseCodes

/-- A pulse code as an instruction does what `DemodByte` does (R101). -/
theorem effect_decodeCode (s : State) (b : Byte) :
    effect (decodeCode s.cfg b) s = ((demodByte s.cfg s.ds b s.now).1, .code (demodByte s.cfg s.ds b s.now).2) := by
  unfold decodeCode demodByte
  cases classOf s.cfg b <;> rfl

theorem exec_decodeCode {s : State} (hp : s.present = true) (b : Byte) :
    exec (decodeCode s.cfg b) s = .next (finishCode s (demodByte s.cfg s.ds b s.now)) := by
  rw [exec_present hp, effect_decodeCode]
  rfl

theorem finishCode_events (s : State) (r : DS × Option Event) :
    (finishCode s r).events = s.events ++ r.2.toList :=
  events_append s _ (.code r.2) rfl

/-- The codes of a list as instructions do what `demodCodes` does, at one time. -/
theorem execCodes_present (s : State) (hp : s.present = true) (codes : List Byte) :
    ∃ u, execCodes s codes = .next u ∧ u.ds = (demodCodes s.cfg s.now s.ds codes).1 ∧
      u.events = s.events ++ (demodCodes s.cfg s.now s.ds codes).2 ∧ u.now = s.now := by
  induction codes generalizing s with
  | nil => exact ⟨s, rfl, rfl, by simp, rfl⟩
  | cons b bs ih =>
    obtain ⟨u, hrun, hds, hevents, hnow⟩ := ih (finishCode s (demodByte s.cfg s.ds b s.now)) hp
    refine ⟨u, ?run, hds, ?events, hnow⟩
    case run => rw [execCodes, exec_decodeCode hp]; exact hrun
    case events => rw [hevents, finishCode_events, List.append_assoc]; rfl

end Sys2Proof.Machine

namespace Sys2Proof

open Machine

/-! ### The obligations -/

/-- Settles O22: both runs do what `demodCodes` does. -/
theorem packetEqualsItsSevenCodesInOrder : Obligations.PacketEqualsItsSevenCodesInOrder := by
  unfold Obligations.PacketEqualsItsSevenCodesInOrder
  intro s codes len hp
  have hpacket := exec_present hp (.rxd codes len)
  obtain ⟨u, hrun, hds, hevents, hnow⟩ := execCodes_present s hp codes
  exact ⟨_, u, hpacket, hrun, hds.symm, (exec_next_events hpacket).trans hevents.symm, rfl, hnow⟩

/-- Settles O24: the carry bytes are those of 127 units; the counter stops at its largest value. -/
theorem carryCountsAndSaturates : Obligations.CarryCountsAndSaturates := by
  unfold Obligations.CarryCountsAndSaturates
  refine ⟨fun cfg b hskip hsat => ?bytes, fun s sp hp => ?counts, fun s t sp hc hacc h => ?saturates⟩
  case bytes => simp [decodeCode_eq_carry_iff, hskip, hsat, ← unitsOf_eq_full_iff]
  case counts => exact exec_present hp _
  case saturates =>
    have hcount : t.ds.accCnt = satInc s.cfg.accW s.ds.accCnt := by rw [exec_next_ds h]; rfl
    rw [hcount, hc, hacc]
    decide

/-- Settles O25: each term is the ceiling of a rational, and every rule keeps the cleared accumulator. -/
theorem elapsedIsTheSumOfTwoExactCeilings : Obligations.ElapsedIsTheSumOfTwoExactCeilings := by
  unfold Obligations.ElapsedIsTheSumOfTwoExactCeilings
  refine ⟨fun cfg n acc hd => ?ceilings, fun n acc => ?defaults, fun s n hp => ?clears⟩
  case ceilings =>
    simp only [elapsed, unitsTime, carryTime, Nat.cast_add, ceilDiv_eq_ceil _ hd, Nat.cast_mul, Nat.cast_one,
      mul_div_assoc]
  case defaults =>
    simp [elapsed, unitsTime, carryTime, ceilDiv, Config.default, Nat.mul_assoc]
  case clears =>
    exact ⟨⟨_, exec_present hp _, evaluate_accCnt ..⟩, ⟨_, exec_present hp _, evaluate_accCnt ..⟩⟩

/-- Settles O26: the window as an absolute value, and as two bounds with the default numbers. -/
theorem toleranceWindowsAreInclusive : Obligations.ToleranceWindowsAreInclusive := by
  unfold Obligations.ToleranceWindowsAreInclusive
  refine ⟨inTol_iff_abs, fun e => ?_⟩
  simp only [inSpaceWindow, inPulseWindow, inHeaderWindow, inTol_iff, Config.default]
  omega

/-- Settles O30: the IDLE rule's guard is the debounce and the header window. -/
theorem idleMarkIsHeaderIffDebouncedAndTimed : Obligations.IdleMarkIsHeaderIffDebouncedAndTimed := by
  unfold Obligations.IdleMarkIsHeaderIffDebouncedAndTimed
  intro s n hp hr
  simp only [← debounceOk_iff, ← inTol_iff_abs]
  refine ⟨fun ⟨hdebounce, hwindow⟩ => exec_mark hp ?header, fun hnot => exec_mark hp ?ignored⟩
  case header => rw [evaluate_idle hr, ruleIdle_header (ds := clearAcc s.ds) hdebounce hwindow]; rfl
  case ignored => rw [evaluate_idle hr, ruleIdle_not_header (ds := clearAcc s.ds) hnot]; rfl

/-- Settles O32: the HSPACE rule's first outcome. -/
theorem headerSpaceAdvancesToMarkZero : Obligations.HeaderSpaceAdvancesToMarkZero := by
  unfold Obligations.HeaderSpaceAdvancesToMarkZero
  intro s n hp hr hpos hwindow
  rw [← inTol_iff_abs] at hwindow
  apply exec_space hp
  rw [evaluate_headerSpace hr hpos, ruleHeaderSpace_advances hwindow]
  rfl

/-- Settles O34: the outcomes of the MARKk rule. -/
theorem dataMarkRecordsItsBitOrResets : Obligations.DataMarkRecordsItsBitOrResets := by
  unfold Obligations.DataMarkRecordsItsBitOrResets
  intro s n hp hr _ _ heven
  refine ⟨fun hpulse => exec_mark hp ?one, fun hpulse hspace => exec_mark hp ?zero,
    fun hpulse hspace => exec_mark hp ?neither, exec_space hp ?space⟩ <;> rw [evaluate_dataMark hr heven]
  case one => rw [ruleDataMark_one hpulse]; rfl
  case zero => rw [ruleDataMark_zero hpulse hspace]; rfl
  case neither => rw [ruleDataMark_neither hpulse hspace, protocolReset_clearAcc]
  case space => rw [ruleDataMark_space, protocolReset_clearAcc]

/-- Settles O35: the outcomes of the SPACEk rule. -/
theorem dataSpaceAdvancesOrResets : Obligations.DataSpaceAdvancesOrResets := by
  unfold Obligations.DataSpaceAdvancesOrResets
  intro s n hp hr hfirst hlast hodd
  refine ⟨fun hwindow => exec_space hp ?advances, fun hwindow => exec_space hp ?outside, exec_mark hp ?mark⟩ <;>
    rw [evaluate_dataSpace hr (by omega) hlast hodd]
  case advances => rw [ruleDataSpace_advances hwindow]; rfl
  case outside => rw [ruleDataSpace_outside hwindow, protocolReset_clearAcc]
  case mark => rw [ruleDataSpace_mark, protocolReset_clearAcc]

/-- Settles O36: the outcomes of the TERM rule; a well-formed record makes `LAST_POS` odd. -/
theorem terminalSpaceEmitsTheCommand : Obligations.TerminalSpaceEmitsTheCommand := by
  unfold Obligations.TerminalSpaceEmitsTheCommand
  intro s n hp hc hr hpos
  refine ⟨exec_mark hp ?mark, fun hemit => exec_space hp ?emits, fun hwindow hterm => exec_space hp ?suppresses⟩ <;>
    rw [evaluate_term hc hr hpos]
  case mark => rw [ruleTerm_mark, protocolReset_clearAcc]
  case emits => rw [ruleTerm_emits hemit]; rfl
  case suppresses => rw [ruleTerm_suppresses hwindow hterm, protocolReset_clearAcc]

end Sys2Proof
end

section
/-! SUPPORT. The classification of an emitted code (42_command_output.md R151). -/

namespace Sys2Proof.Machine

/-- The last row of R151: a code that none of the five rows lists is unknown. -/
theorem classify_eq_unknown {code : Nat} (h : code ∉ [0, 18, 19, 20, 21]) : classify code = .unknown code := by
  simp only [List.mem_cons, List.not_mem_nil, or_false, not_or] at h
  obtain ⟨hNone, hVolumeUp, hVolumeDown, hMute, hPower⟩ := h
  simp only [classify, if_neg hNone, if_neg hVolumeUp, if_neg hVolumeDown, if_neg hMute, if_neg hPower]

end Sys2Proof.Machine

namespace Sys2Proof

open Machine

/-- Settles O39: the five listed codes each reach their own row, and any other code reaches the last one. -/
theorem classificationOfEveryCode : Obligations.ClassificationOfEveryCode := by
  unfold Obligations.ClassificationOfEveryCode
  refine ⟨rfl, rfl, rfl, rfl, rfl, fun c hNone hVolumeUp hVolumeDown hMute hPower => classify_eq_unknown ?unlisted⟩
  case unlisted => simp [hNone, hVolumeUp, hVolumeDown, hMute, hPower]

end Sys2Proof
end

section
/-! SUPPORT. The block reset and the wait for the first transaction (70_reset_and_hazards.md R190). -/

namespace Sys2Proof.Machine

/-- A step on a block reset, whether the block was present or not. -/
theorem step_reset {s : State} {rest : List Input} (hin : s.inputs = .reset :: rest) :
    step s = .next (blockReset { s with inputs := rest }) := by
  simp only [step, takeInput, hin]

/-- With nothing presented the block waits. -/
theorem step_nothing_presented {s : State} (hin : s.inputs = []) : step s = .next s := by
  simp only [step, takeInput, hin]

end Sys2Proof.Machine

namespace Sys2Proof

open Machine

/-- Settles O1: the step is the block reset; an absent `last_cmd` leaves the debounce open at every time, and an empty rest of
the stream makes the next step a wait. -/
theorem blockResetSetsEveryElement : Obligations.BlockResetSetsEveryElement := by
  unfold Obligations.BlockResetSetsEveryElement
  intro s rest hin
  refine ⟨_, step_reset hin, dsReset_accCnt, dsReset_receiving, dsReset_bitPos, dsReset_bitBuf, dsReset_lastCmd,
    blockReset_outputs _, blockReset_present _, blockReset_inputs _, blockReset_cfg _, blockReset_now _,
    debounceOk_none s.cfg, ?waits, (blockReset_ds _).symm⟩
  case waits => exact fun hrest => step_nothing_presented ((blockReset_inputs _).trans hrest)

end Sys2Proof
end

section
/-! SUPPORT. Proofs of the statements that decoding and encoding are inverse to each other, over all three formats
(30_encoding.md R60-R73). -/

namespace Sys2Proof

/-! ### The CTL rows -/

theorem decodeControl_wf (cfg : Config) (dir type : Byte) (data : Data4) :
    (decodeControl dir type data).wf cfg = true := by
  unfold decodeControl
  split_ifs with h1 h2 h3 h4 h5 h6
  case neg => simp [Instr.wf, h1, h2, h3, h4, h5, h6]
  all_goals rfl

theorem encode_decodeControl (cfg : Config) (dir type : Byte) (data : Data4) :
    encode cfg (decodeControl dir type data) = .packet (controlBytes dir type data) := by
  unfold decodeControl
  split_ifs with h1 h2 h3 h4 h5 h6
  case neg => rfl
  all_goals subst type; rfl

/-! ### The PCODE8 rows -/

theorem decodeCode_codeByte_carry {cfg : Config} {s : Bool} (h : codeByte s cfg.satUnits ≠ cfg.skipByte) :
    decodeCode cfg (codeByte s cfg.satUnits) = .carry s := by
  rw [decodeCode, classOf_codeByte, if_neg h, if_pos rfl, classInstr]

theorem decodeCode_codeByte_evaluated {cfg : Config} {s : Bool} {n : Units} (hn : n ≠ cfg.satUnits)
    (h : codeByte s n ≠ cfg.skipByte) :
    decodeCode cfg (codeByte s n) = if s = false then .mark n else .space n := by
  rw [decodeCode, classOf_codeByte, if_neg h, if_neg hn]
  split_ifs <;> rfl

theorem decodeCode_skipByte (cfg : Config) : decodeCode cfg cfg.skipByte = .skip := by
  rw [decodeCode, classOf, if_pos rfl, classInstr]

/-- Every byte is well formed as the instruction of its class, and is that instruction's encoding. -/
theorem decodeCode_wf_and_encode (cfg : Config) (b : Byte) :
    (decodeCode cfg b).wf cfg = true ∧ encode cfg (decodeCode cfg b) = .code b := by
  have hfields := codeByte_fields b
  unfold decodeCode classOf
  split_ifs with hskip hsat hmark
  · exact ⟨rfl, by rw [hskip]; rfl⟩
  · rw [hsat] at hfields
    simp [classInstr, Instr.wf, encode, hfields, hskip]
  · rw [hmark] at hfields
    simp [classInstr, Instr.wf, encode, hfields, hskip, hsat]
  · rw [Bool.eq_true_of_not_eq_false hmark] at hfields
    simp [classInstr, Instr.wf, encode, hfields, hskip, hsat]

/-! ### The PKT64 rows -/

/-- Eight bytes are the encoding of the well-formed row they decode to. -/
theorem decodePacket_wf_and_encode (cfg : Config) (hc : cfg.wf = true) (buf : List Byte) (h : buf.length = 8) :
    ∃ i, decodePacket cfg buf = .ok i ∧ i.wf cfg = true ∧ encode cfg i = .packet buf := by
  obtain ⟨-, -, h7, -⟩ := cfg.wf_iff.mp hc
  obtain ⟨b0, b1, b2, b3, b4, b5, b6, b7, rfl⟩ := eight_bytes h
  refine ⟨_, decodePacket_eight cfg hc b0 b1 b2 b3 b4 b5 b6 b7, ?_⟩
  split_ifs with hzero
  · obtain ⟨rfl, rfl⟩ := hzero
    exact ⟨decodeControl_wf cfg .., encode_decodeControl cfg ..⟩
  · exact ⟨by simpa [Instr.wf, h7, byteAt] using not_and_or.mp hzero, rfl⟩

/-! ### The obligations -/

/-- Settles O6: one case per row; the control rows differ in their type byte alone. -/
theorem decodeOfEncodeIsTheInstruction : Obligations.DecodeOfEncodeIsTheInstruction := by
  unfold Obligations.DecodeOfEncodeIsTheInstruction
  intro cfg i hc hi
  cases i with
  | rxd codes declLen => exact decodePacket_rxd cfg hc codes declLen hi
  | ctlVersion dir data => exact decodePacket_controlBytes cfg hc dir (typeCode .version) data
  | ctlRxEnable dir data => exact decodePacket_controlBytes cfg hc dir (typeCode .rxEnable) data
  | ctlRxDisable dir data => exact decodePacket_controlBytes cfg hc dir (typeCode .rxDisable) data
  | ctlRxData dir data => exact decodePacket_controlBytes cfg hc dir (typeCode .rxData) data
  | ctlBofRx dir data => exact decodePacket_controlBytes cfg hc dir (typeCode .bofRx) data
  | ctlBofTx dir data => exact decodePacket_controlBytes cfg hc dir (typeCode .bofTx) data
  | ctlUnknown dir v data =>
    rw [encode, decode, decodePacket_controlBytes cfg hc, decodeControl_unknown (of_decide_eq_true hi)]
  | skip => exact congrArg Decoded.ok (decodeCode_skipByte cfg)
  | carry s => exact congrArg Decoded.ok (decodeCode_codeByte_carry (of_decide_eq_true hi))
  | mark n =>
    obtain ⟨hn, hskip⟩ := of_decide_eq_true hi
    exact congrArg Decoded.ok (decodeCode_codeByte_evaluated hn hskip)
  | space n =>
    obtain ⟨hn, hskip⟩ := of_decide_eq_true hi
    exact congrArg Decoded.ok (decodeCode_codeByte_evaluated hn hskip)
  | encode dir type data => rfl
  | getVersion => rfl
  | rxEnable => rfl
  | rxDisable => rfl

/-- Settles O7: one case per format. -/
theorem encodeOfDecodeIsTheInput : Obligations.EncodeOfDecodeIsTheInput := by
  unfold Obligations.EncodeOfDecodeIsTheInput
  intro cfg x hc hlen
  obtain ⟨-, h8, -, -⟩ := cfg.wf_iff.mp hc
  cases x with
  | packet buf => exact decodePacket_wf_and_encode cfg hc buf ((hlen buf rfl).trans h8)
  | code b => exact ⟨_, rfl, decodeCode_wf_and_encode cfg b⟩
  | request r => cases r <;> exact ⟨_, rfl, rfl, rfl⟩

/-- Settles O8: each word is read by the decoder of the default record. -/
theorem specWordsDecodeRight : Obligations.SpecWordsDecodeRight := by
  unfold Obligations.SpecWordsDecodeRight
  decide

end Sys2Proof
end

section
/-! SUPPORT. What one input of the host does, said once as an equation, and the proofs of the statements about transactions
(20_memory.md R47-R55, 60_exceptions.md R167-R184). -/

namespace Sys2Proof

/-- The instruction a buffer is decoded to is receiver data or one of the CTL rows. -/
theorem decodePacket_ok_cases {cfg : Config} {buf : List Byte} {i : Instr} (h : decodePacket cfg buf = .ok i) :
    (∃ dir type data, i = decodeControl dir type data) ∨ ∃ codes declLen, i = .rxd codes declLen := by
  unfold decodePacket at h
  split_ifs at h
  cases h
  unfold decodeFields
  split_ifs
  · exact .inl ⟨_, _, _, rfl⟩
  · exact .inr ⟨_, _, rfl⟩

/-! ### The opcode table's words on another block -/

theorem decode_of_decodeTableWord {nbits w : Nat} {i : Instr} (h : decodeTableWord nbits w = some i) :
    decode Config.default (tableItem nbits w) = .ok i := by
  unfold decodeTableWord at h
  split at h
  case h_1 hd => rw [hd, Option.some.inj h]
  all_goals cases h

/-- A block with the table's formats reads what the default block reads. -/
theorem decode_of_decode_default {cfg : Config} (hc : cfg.wf = true) (hskip : cfg.skipByte = 0x80#8)
    (hsat : cfg.satUnits = 127#7) {x : Item} {i : Instr} (h : decode Config.default x = .ok i) :
    decode cfg x = .ok i := by
  obtain ⟨-, h8, h7, -⟩ := cfg.wf_iff.mp hc
  cases x with
  | packet buf =>
    obtain hlt | heq | hgt := lt_trichotomy buf.length Config.default.pktLen
    · rw [decode, decodePacket_short _ _ hlt rfl] at h
      cases h
    · rw [decode, decodePacket_exact _ _ heq] at h
      rw [decode, decodePacket_exact _ _ (heq.trans h8.symm), ← h, decodeFields, decodeFields, h7]
      rfl
    · rw [decode, decodePacket_long _ _ hgt] at h
      cases h
  | code b =>
    rw [← h, decode, decode, decodeCode, decodeCode, classOf_congr (c := cfg) (d := Config.default) hskip hsat]
  | request q => exact h

end Sys2Proof

namespace Sys2Proof.Machine

/-! ### What an instruction leaves alone -/

/-- Only RXD, CARRY, MARK and SPACE touch `DS` and the event output. -/
theorem effect_quiet {i : Instr} (hrxd : ∀ codes len, i ≠ .rxd codes len) (hcarry : ∀ sp, i ≠ .carry sp)
    (hmark : ∀ n, i ≠ .mark n) (hspace : ∀ n, i ≠ .space n) (s : State) :
    (effect i s).1 = s.ds ∧ (effect i s).2.events = [] := by
  cases i with
  | rxd codes len => exact absurd rfl (hrxd codes len)
  | carry sp => exact absurd rfl (hcarry sp)
  | mark n => exact absurd rfl (hmark n)
  | space n => exact absurd rfl (hspace n)
  | _ => exact ⟨rfl, rfl⟩

/-! ### What a transaction does -/

/-- What a transaction does to the demodulator and puts out, in the state whose time input it has sampled. -/
def transact (s : State) (x : Item) : DS × Output :=
  match decode s.cfg x with
  | .ok i => effect i s
  | .malformed => (s.ds, .packet .malformed .malformed [])
  | .short => (s.ds, .packet .short .short [])

theorem transact_ok {s : State} {x : Item} {i : Instr} (h : decode s.cfg x = .ok i) : transact s x = effect i s := by
  simp only [transact, h]

theorem transact_malformed {s : State} {x : Item} (h : decode s.cfg x = .malformed) :
    transact s x = (s.ds, .packet .malformed .malformed []) := by
  simp only [transact, h]

theorem transact_short {s : State} {x : Item} (h : decode s.cfg x = .short) :
    transact s x = (s.ds, .packet .short .short []) := by
  simp only [transact, h]

theorem transact_code (s : State) (b : Byte) :
    transact s (.code b) = ((demodByte s.cfg s.ds b s.now).1, .code (demodByte s.cfg s.ds b s.now).2) :=
  effect_decodeCode s b

theorem transact_request (s : State) (q : Request) :
    ∃ bytes, transact s (.request q) = (s.ds, .encoded bytes) ∧ bytes.length = 8 := by
  cases q <;> exact ⟨_, rfl, rfl⟩

/-- The bytes of a request, presented as a packet, name its direction and type again (R95). -/
theorem transact_encodeRequest {s : State} (hc : s.cfg.wf = true) (dir : NamedDir) (type : NamedType) (data : Data4) :
    transact s (.packet (encodeRequest dir type data)) =
      (s.ds, .packet .control (.control (.named dir) (.named type) data) []) := by
  have hd : decode s.cfg (.packet (encodeRequest dir type data)) =
      .ok (decodeControl (dirCode dir) (typeCode type) data) := decodePacket_controlBytes s.cfg hc _ _ data
  rw [transact_ok hd, effect_decodeControl, dirOf_dirCode, typeOf_typeCode]

/-- An instruction reads the parameters, `DS` and the time input. -/
theorem effect_congr (i : Instr) {s s' : State} (hc : s.cfg = s'.cfg) (hds : s.ds = s'.ds) (hnow : s.now = s'.now) :
    effect i s = effect i s' := by
  cases i <;> simp only [effect, hc, hds, hnow]

/-- A transaction reads the parameters, `DS` and the time input. -/
theorem transact_congr (x : Item) {s s' : State} (hc : s.cfg = s'.cfg) (hds : s.ds = s'.ds) (hnow : s.now = s'.now) :
    transact s x = transact s' x := by
  simp only [transact, effect_congr _ hc hds hnow, hc, hds]

/-- The status and the result of a packet come from the bytes and the parameters (R96). -/
theorem transact_packet (cfg : Config) (buf : List Byte) :
    ∃ st r, ∀ s : State, s.cfg = cfg → ∃ evs, (transact s (.packet buf)).2 = .packet st r evs := by
  cases h : decode cfg (.packet buf) with
  | ok i =>
    obtain ⟨dir, type, data, rfl⟩ | ⟨codes, declLen, rfl⟩ := decodePacket_ok_cases h
    · refine ⟨.control, .control (dirOf dir) (typeOf type) data, fun s hs => ⟨[], ?_⟩⟩
      rw [transact_ok (hs ▸ h), effect_decodeControl]
    · refine ⟨.data, .data codes declLen, fun s hs => ⟨(demodPacket s.cfg s.ds codes s.now).2, ?_⟩⟩
      rw [transact_ok (hs ▸ h)]
      rfl
  | malformed => exact ⟨.malformed, .malformed, fun s hs => ⟨[], by rw [transact_malformed (hs ▸ h)]⟩⟩
  | short => exact ⟨.short, .short, fun s hs => ⟨[], by rw [transact_short (hs ▸ h)]⟩⟩

/-- A packet that is not receiver data leaves `DS` alone and puts out no event (R48). -/
theorem transact_packet_not_rxd {s : State} {buf : List Byte}
    (h : ∀ codes declLen, decodePacket s.cfg buf ≠ .ok (.rxd codes declLen)) :
    (transact s (.packet buf)).1 = s.ds ∧ (transact s (.packet buf)).2.events = [] := by
  cases hd : decode s.cfg (.packet buf) with
  | ok i =>
    obtain ⟨dir, type, data, rfl⟩ | ⟨codes, declLen, rfl⟩ := decodePacket_ok_cases hd
    · rw [transact_ok hd, effect_decodeControl]
      exact ⟨rfl, rfl⟩
    · exact absurd hd (h codes declLen)
  | malformed => rw [transact_malformed hd]; exact ⟨rfl, rfl⟩
  | short => rw [transact_short hd]; exact ⟨rfl, rfl⟩

/-- What a transaction does to the demodulator and the event output is what some list of codes does, one after the other. -/
theorem transact_demodCodes (s : State) (x : Item) :
    ∃ bs, (transact s x).1 = (demodCodes s.cfg s.now s.ds bs).1 ∧
      (transact s x).2.events = (demodCodes s.cfg s.now s.ds bs).2 := by
  cases x with
  | packet buf =>
    cases h : decode s.cfg (.packet buf) with
    | ok i =>
      rw [transact_ok h]
      obtain ⟨dir, type, data, rfl⟩ | ⟨codes, declLen, rfl⟩ := decodePacket_ok_cases h
      · rw [effect_decodeControl]
        exact ⟨[], rfl, rfl⟩
      · exact ⟨codes, rfl, rfl⟩
    | malformed => rw [transact_malformed h]; exact ⟨[], rfl, rfl⟩
    | short => rw [transact_short h]; exact ⟨[], rfl, rfl⟩
  | code b => rw [transact_code]; exact ⟨[b], rfl, (List.append_nil _).symm⟩
  | request q =>
    obtain ⟨bytes, h, -⟩ := transact_request s q
    rw [h]
    exact ⟨[], rfl, rfl⟩

/-! ### A step, one equation per input -/

/-- The time input while an input of the host is dealt with (R177). -/
def sampled (cfg : Config) (now : Nat) (x : Input) : Nat := (x.time.map (timeIn cfg)).getD now

/-- A time that fits the input and is presented again changes nothing. -/
theorem sampled_presentItem {cfg : Config} {now : Nat} (h : now < 2 ^ cfg.tsW) (item : Item) :
    sampled cfg now (presentItem now item) = now := by
  cases item with
  | packet buf => exact timeIn_of_lt h
  | code b => exact timeIn_of_lt h
  | request q => rfl

section Step

variable {s : State} {now : Nat} {rest : List Input}

theorem step_shutdown (hin : s.inputs = .shutdown :: rest) : step s = .next (shutdown { s with inputs := rest }) := by
  simp only [step, takeInput, hin]

theorem step_code {b : Byte} (hin : s.inputs = .code b now :: rest) :
    step s = exec (decodeCode s.cfg b) { s with inputs := rest, now := timeIn s.cfg now } := by
  simp only [step, takeInput, hin]

theorem step_request {q : Request} (hin : s.inputs = .request q :: rest) :
    step s = exec (requestInstr q) { s with inputs := rest } := by
  simp only [step, takeInput, hin]

end Step

/-- An input is a block reset, a shutdown, or an item presented at a time. -/
theorem input_cases (x : Input) : x = .reset ∨ x = .shutdown ∨ ∃ now item, x = presentItem now item := by
  cases x with
  | reset => exact .inl rfl
  | shutdown => exact .inr (.inl rfl)
  | packet buf now => exact .inr (.inr ⟨now, .packet buf, rfl⟩)
  | code b now => exact .inr (.inr ⟨now, .code b, rfl⟩)
  | request r => exact .inr (.inr ⟨0, .request r, rfl⟩)

/-- The state in which a transaction runs: the input taken off the stream, its time sampled. -/
def taken (s : State) (x : Input) (rest : List Input) : State :=
  { s with inputs := rest, now := sampled s.cfg s.now x }

@[simp] theorem taken_cfg (s : State) (x : Input) (rest : List Input) : (taken s x rest).cfg = s.cfg := rfl
@[simp] theorem taken_ds (s : State) (x : Input) (rest : List Input) : (taken s x rest).ds = s.ds := rfl
@[simp] theorem taken_present (s : State) (x : Input) (rest : List Input) : (taken s x rest).present = s.present := rfl
@[simp] theorem taken_now (s : State) (x : Input) (rest : List Input) :
    (taken s x rest).now = sampled s.cfg s.now x := rfl
@[simp] theorem taken_inputs (s : State) (x : Input) (rest : List Input) : (taken s x rest).inputs = rest := rfl
@[simp] theorem taken_outputs (s : State) (x : Input) (rest : List Input) : (taken s x rest).outputs = s.outputs := rfl

/-- The state after a transaction that completes. -/
def serve (x : Item) (s : State) : State :=
  { s with ds := (transact s x).1, outputs := s.outputs ++ [(transact s x).2] }

@[simp] theorem serve_cfg (x : Item) (s : State) : (serve x s).cfg = s.cfg := rfl
@[simp] theorem serve_ds (x : Item) (s : State) : (serve x s).ds = (transact s x).1 := rfl
@[simp] theorem serve_present (x : Item) (s : State) : (serve x s).present = s.present := rfl
@[simp] theorem serve_now (x : Item) (s : State) : (serve x s).now = s.now := rfl
@[simp] theorem serve_inputs (x : Item) (s : State) : (serve x s).inputs = s.inputs := rfl
@[simp] theorem serve_outputs (x : Item) (s : State) : (serve x s).outputs = s.outputs ++ [(transact s x).2] := rfl

theorem serve_events (x : Item) (s : State) : (serve x s).events = s.events ++ (transact s x).2.events :=
  events_append s _ _ rfl

theorem exec_serve {s : State} (hp : s.present = true) {x : Item} {i : Instr} (h : decode s.cfg x = .ok i) :
    exec i s = .next (serve x s) := by
  rw [exec_present hp, serve, transact_ok h]

/-- What is decoded is run, present or absent. -/
theorem step_decoded {s : State} {now : Nat} {item : Item} {rest : List Input} {i : Instr}
    (hin : s.inputs = presentItem now item :: rest) (h : decode s.cfg item = .ok i) :
    step s = exec i (taken s (presentItem now item) rest) := by
  cases item with
  | packet buf => exact step_packet_ok hin h
  | code b => cases h; exact step_code hin
  | request q => cases h; exact step_request hin

/-- A transaction on a present block. -/
theorem step_transaction {s : State} {now : Nat} {item : Item} {rest : List Input}
    (hin : s.inputs = presentItem now item :: rest) (hp : s.present = true) :
    step s = .next (serve item (taken s (presentItem now item) rest)) := by
  cases h : decode (taken s (presentItem now item) rest).cfg item with
  | ok i => exact (step_decoded hin h).trans (exec_serve (s := taken s _ rest) hp h)
  | malformed =>
    cases item with
    | packet buf => rw [serve, transact_malformed h]; exact step_packet_malformed hp hin h
    | code b => cases h
    | request q => cases h
  | short =>
    cases item with
    | packet buf => rw [serve, transact_short h]; exact step_packet_short hp hin h
    | code b => cases h
    | request q => cases h

/-- A request carries no time, so it runs at the time that stands. -/
theorem step_request_present {s : State} {q : Request} {rest : List Input} (hin : s.inputs = .request q :: rest)
    (hp : s.present = true) : step s = .next (serve (.request q) { s with inputs := rest }) :=
  step_transaction (now := s.now) (item := .request q) hin hp

/-- A transaction on an absent block (70_reset_and_hazards.md R191). -/
theorem step_transaction_absent {s : State} (hp : s.present = false) {now : Nat} {item : Item} {rest : List Input}
    (hin : s.inputs = presentItem now item :: rest) : step s = .fault .blockAbsent := by
  cases item with
  | packet buf =>
    cases h : decodePacket s.cfg buf <;>
      simp [step, takeInput, hin, presentItem, fetchPacket, h, fetchRejected, hp, exec_eq, whenPresent_absent]
  | code b => rw [step_code hin, exec_eq]; exact whenPresent_absent hp
  | request q => rw [step_request hin, exec_eq]; exact whenPresent_absent hp

/-- A transaction that completes was presented to a present block. -/
theorem step_transaction_next {s t : State} {now : Nat} {item : Item} {rest : List Input}
    (hin : s.inputs = presentItem now item :: rest) (h : step s = .next t) :
    s.present = true ∧ t = serve item (taken s (presentItem now item) rest) := by
  cases hp : s.present with
  | false => rw [step_transaction_absent hp hin] at h; cases h
  | true => rw [step_transaction hin hp] at h; exact ⟨rfl, (Host.Outcome.next.inj h).symm⟩

/-- The four kinds of step. -/
theorem step_next_cases {s t : State} (h : step s = .next t) :
    (s.inputs = [] ∧ t = s) ∨
    (∃ rest, s.inputs = .reset :: rest ∧ t = blockReset { s with inputs := rest }) ∨
    (∃ rest, s.inputs = .shutdown :: rest ∧ t = shutdown { s with inputs := rest }) ∨
    (∃ now item rest, s.inputs = presentItem now item :: rest ∧ s.present = true ∧
      t = serve item (taken s (presentItem now item) rest)) := by
  match hin : s.inputs with
  | [] =>
    rw [step_nothing_presented hin] at h
    exact .inl ⟨rfl, (Host.Outcome.next.inj h).symm⟩
  | x :: rest =>
    obtain rfl | rfl | ⟨now, item, rfl⟩ := input_cases x
    · rw [step_reset hin] at h
      exact .inr (.inl ⟨rest, rfl, (Host.Outcome.next.inj h).symm⟩)
    · rw [step_shutdown hin] at h
      exact .inr (.inr (.inl ⟨rest, rfl, (Host.Outcome.next.inj h).symm⟩))
    · exact .inr (.inr (.inr ⟨now, item, rest, rfl, step_transaction_next hin h⟩))

/-- Steps chained, as the runs of the statements have them. -/
theorem run_succ {s t : State} (h : step s = .next t) (k : Nat) :
    Host.Core.run core (k + 1) s = Host.Core.run core k t := by
  simp only [Host.Core.run, core, h]

theorem run_zero (s : State) : Host.Core.run core 0 s = .next s := rfl

theorem run_two {s t u : State} (hfirst : step s = .next t) (hsecond : step t = .next u) :
    Host.Core.run core 2 s = .next u := by
  rw [run_succ hfirst, run_succ hsecond, run_zero]

/-! ### A request and a packet, in either order -/

section Commute

variable {s : State} (hp : s.present = true) (q : Request) (buf : List Byte) (now : Nat) (rest : List Input)

include hp

/-- The packet finds the `DS` that the request found. -/
theorem run_request_packet :
    ∃ t, Host.Core.run core 2 { s with inputs := .request q :: .packet buf now :: rest } = .next t ∧
      t.ds = (transact (taken s (.packet buf now) rest) (.packet buf)).1 ∧
      t.events = s.events ++ (transact (taken s (.packet buf now) rest) (.packet buf)).2.events ∧
      t.now = timeIn s.cfg now ∧ t.inputs = rest := by
  obtain ⟨bytes, hrequest, -⟩ := transact_request { s with inputs := .packet buf now :: rest } q
  let afterRequest := serve (.request q) { s with inputs := .packet buf now :: rest }
  have hpacket : transact (taken afterRequest (.packet buf now) rest) (.packet buf) =
      transact (taken s (.packet buf now) rest) (.packet buf) :=
    transact_congr _ rfl (congrArg Prod.fst hrequest) rfl
  refine ⟨_, run_two (t := afterRequest) (step_request_present rfl hp) (step_transaction (item := .packet buf) rfl hp),
    congrArg Prod.fst hpacket, ?_, rfl, rfl⟩
  have hquiet : afterRequest.events = s.events := by
    rw [serve_events, hrequest]
    exact List.append_nil _
  rw [serve_events]
  exact congr (congrArg (· ++ ·) hquiet) (congrArg (fun r => r.2.events) hpacket)

/-- The request leaves what the packet did as it is. -/
theorem run_packet_request :
    ∃ t, Host.Core.run core 2 { s with inputs := .packet buf now :: .request q :: rest } = .next t ∧
      t.ds = (transact (taken s (.packet buf now) rest) (.packet buf)).1 ∧
      t.events = s.events ++ (transact (taken s (.packet buf now) rest) (.packet buf)).2.events ∧
      t.now = timeIn s.cfg now ∧ t.inputs = rest := by
  let afterPacket := serve (.packet buf) (taken s (.packet buf now) (.request q :: rest))
  obtain ⟨bytes, hrequest, -⟩ := transact_request { afterPacket with inputs := rest } q
  refine ⟨_, run_two (t := afterPacket) (step_transaction (item := .packet buf) rfl hp) (step_request_present rfl hp),
    by rw [serve_ds, hrequest]; rfl, ?_, rfl, rfl⟩
  rw [serve_events, hrequest]
  exact (List.append_nil _).trans (serve_events _ _)

end Commute

end Sys2Proof.Machine

namespace Sys2Proof

open Machine

/-! ### The obligations -/

/-- Settles O12: the equation of each kind of input that is decoded. -/
theorem stepRunsTheDecodedInstruction : Obligations.StepRunsTheDecodedInstruction := by
  unfold Obligations.StepRunsTheDecodedInstruction
  intro s rest now
  exact ⟨fun buf i hin hd => step_packet_ok hin hd, fun b hin => step_code hin, fun q hin => step_request hin⟩

/-- Settles O3: the shutdown's own equation, and the two equations of an absent block. -/
theorem shutdownDiscardsAndStopsTransactions : Obligations.ShutdownDiscardsAndStopsTransactions := by
  unfold Obligations.ShutdownDiscardsAndStopsTransactions
  refine ⟨fun s rest hin => step_shutdown hin, fun s x rest hp hin hreset hshutdown => ?absent,
    fun s rest _ hin => step_reset hin⟩
  case absent =>
    obtain rfl | rfl | ⟨now, item, rfl⟩ := input_cases x
    · exact absurd rfl hreset
    · exact absurd rfl hshutdown
    · exact step_transaction_absent hp hin

/-- Settles O4: a step on a present block is the reset, the shutdown, the wait, or a transaction with its one output. -/
theorem presentBlockAlwaysCompletes : Obligations.PresentBlockAlwaysCompletes := by
  unfold Obligations.PresentBlockAlwaysCompletes
  intro s hp
  match hin : s.inputs with
  | [] => exact ⟨s, step_nothing_presented hin, nofun, nofun, nofun, fun _ => rfl⟩
  | .reset :: rest => exact ⟨_, step_reset hin, nofun, nofun, nofun, nofun⟩
  | .shutdown :: rest => exact ⟨_, step_shutdown hin, nofun, nofun, nofun, nofun⟩
  | .packet buf now :: rest =>
    refine ⟨_, step_transaction (item := .packet buf) hin hp, fun buf' now' rest' h => ?_, nofun, nofun, nofun⟩
    cases h
    obtain ⟨st, r, hout⟩ := transact_packet s.cfg buf
    obtain ⟨evs, hout⟩ := hout (taken s (presentItem now (.packet buf)) rest) rfl
    refine ⟨st, r, evs, by rw [serve_outputs, hout]; rfl, ?_⟩
    cases st <;> simp [statusCode]
  | .code b now :: rest =>
    refine ⟨_, step_transaction (item := .code b) hin hp, nofun, nofun, fun b' now' rest' h => ?_, nofun⟩
    rw [serve_outputs, transact_code]
    exact ⟨_, rfl⟩
  | .request q :: rest =>
    refine ⟨_, step_transaction (item := .request q) (now := s.now) hin hp, nofun, fun q' rest' h => ?_, nofun, nofun⟩
    cases h
    obtain ⟨bytes, hout, hlen⟩ := transact_request (taken s (.request q) rest) q
    exact ⟨bytes, by rw [serve_outputs]; exact congrArg (s.outputs ++ [·.2]) hout, hlen⟩

/-- Settles O5: three steps and two steps, each by its equation. -/
theorem initAndShutdownSequences : Obligations.InitAndShutdownSequences := by
  unfold Obligations.InitAndShutdownSequences
  refine ⟨fun s rest hin => ?init, fun s rest hp hin => ?shutdown⟩
  case init =>
    have hrun := (run_succ (step_reset hin) 2).trans <|
      (run_succ (step_request_present rfl rfl) 1).trans <| (run_succ (step_request_present rfl rfl) 0).trans (run_zero _)
    exact ⟨_, hrun, rfl, rfl, rfl, List.append_assoc ..⟩
  case shutdown =>
    have hrun := (run_succ (step_request_present hin hp) 1).trans <|
      (run_succ (step_shutdown rfl) 0).trans (run_zero _)
    exact ⟨_, hrun, rfl, rfl, rfl⟩

/-- Settles O13: the word decodes to the same instruction on the block itself, and is run in the state it was placed in. -/
theorem placedTableWordRunsNext : Obligations.PlacedTableWordRunsNext := by
  unfold Obligations.PlacedTableWordRunsNext
  intro s nbits w i hc hskip hsat hnow hword
  have hd := decode_of_decode_default hc hskip hsat (decode_of_decodeTableWord hword)
  have hstate : taken (s.withFetchWord nbits w) (presentItem s.now (tableItem nbits w)) s.inputs =
      { s with now := sampled s.cfg s.now (presentItem s.now (tableItem nbits w)) } := rfl
  rw [step_decoded (s := s.withFetchWord nbits w) rfl hd, hstate, sampled_presentItem hnow]

/-- Settles O20: the bytes of a request are a control packet, whose two field bytes are read back as they were named. -/
theorem roundTripThroughTheBlock : Obligations.RoundTripThroughTheBlock := by
  unfold Obligations.RoundTripThroughTheBlock
  intro s dir ty d bytes now t rest hc hexec hout
  obtain ⟨hp, rfl⟩ := exec_next hexec
  obtain rfl : encodeRequest dir ty d = bytes := by simpa [effect] using hout
  refine ⟨_, step_transaction (item := .packet (encodeRequest dir ty d)) rfl hp, ?_⟩
  rw [serve_outputs, serve_ds, transact_encodeRequest (by exact hc)]
  exact ⟨rfl, rfl⟩

/-- Settles O49: an instruction that completes has written `ds` and added an output. -/
theorem instructionFrame : Obligations.InstructionFrame := by
  unfold Obligations.InstructionFrame
  intro i s t h
  have hevents := exec_next_events h
  obtain ⟨-, rfl⟩ := exec_next h
  refine ⟨rfl, rfl, rfl, rfl, ⟨_, rfl⟩, fun hrxd hcarry hmark hspace => ?_⟩
  obtain ⟨hds, hnone⟩ := effect_quiet hrxd hcarry hmark hspace s
  exact ⟨hds, by rw [hevents, hnone, List.append_nil]⟩

/-- Settles O50: of the four kinds of step a transaction alone adds an output, and none writes a parameter. -/
theorem noStepWritesParametersOrPastOutputs : Obligations.NoStepWritesParametersOrPastOutputs := by
  unfold Obligations.NoStepWritesParametersOrPastOutputs
  intro s t h
  obtain ⟨-, rfl⟩ | ⟨rest, -, rfl⟩ | ⟨rest, -, rfl⟩ | ⟨now, item, rest, -, -, rfl⟩ := step_next_cases h
  · simp
  · simp
  · simp
  · simp

/-- Settles O52: a length error or a control packet. -/
theorem onlyReceiverDataTouchesTheFrame : Obligations.OnlyReceiverDataTouchesTheFrame := by
  unfold Obligations.OnlyReceiverDataTouchesTheFrame
  intro s t buf now rest hin hrxd h
  obtain ⟨-, rfl⟩ := step_transaction_next (item := .packet buf) hin h
  obtain ⟨hds, hevents⟩ := transact_packet_not_rxd (s := taken s (.packet buf now) rest) hrxd
  exact ⟨hds, (serve_events _ _).trans ((congrArg (s.events ++ ·) hevents).trans (List.append_nil _))⟩

/-- Settles O53: the request changes neither what the packet reads nor the events. -/
theorem encodeRequestsCommuteWithPackets : Obligations.EncodeRequestsCommuteWithPackets := by
  unfold Obligations.EncodeRequestsCommuteWithPackets
  intro s q buf now rest hp
  obtain ⟨t, hrun, hds, hevents, hnow, hinputs⟩ := run_request_packet hp q buf now rest
  obtain ⟨u, hrun', hds', hevents', hnow', hinputs'⟩ := run_packet_request hp q buf now rest
  exact ⟨t, u, hrun, hrun', hds.trans hds'.symm, hevents.trans hevents'.symm, hnow.trans hnow'.symm,
    hinputs.trans hinputs'.symm⟩

/-- Settles O54: the status and the result come from the bytes; the rest of a transaction from what it reads. -/
theorem resultDependsOnTheBytesAlone : Obligations.ResultDependsOnTheBytesAlone := by
  unfold Obligations.ResultDependsOnTheBytesAlone
  intro s s' buf now now' rest rest' hp hp' hc hin hin'
  obtain ⟨st, r, hout⟩ := transact_packet s.cfg buf
  obtain ⟨evs, hevs⟩ := hout (taken s (.packet buf now) rest) rfl
  obtain ⟨evs', hevs'⟩ := hout (taken s' (.packet buf now') rest') hc.symm
  refine ⟨_, _, st, r, evs, evs', step_transaction (item := .packet buf) hin hp,
    step_transaction (item := .packet buf) hin' hp', congrArg (s.outputs ++ [·]) hevs, congrArg (s'.outputs ++ [·]) hevs',
    fun hnow hds => ?_⟩
  have hsame := transact_congr (.packet buf) (s := taken s (.packet buf now) rest) (s' := taken s' (.packet buf now') rest')
    hc hds (by rw [taken_now, taken_now, hc, hnow]; rfl)
  refine ⟨congrArg Prod.fst hsame, ?_⟩
  rw [hsame, hevs'] at hevs
  cases hevs
  rfl

/-- Settles O55: what a transaction reads is neither behind the head of the stream nor in the record. -/
theorem stepSeesOnlyTheHeadOfTheStream : Obligations.StepSeesOnlyTheHeadOfTheStream := by
  unfold Obligations.StepSeesOnlyTheHeadOfTheStream
  intro s t x rest rest' past hin h
  obtain rfl | rfl | ⟨now, item, rfl⟩ := input_cases x
  · rw [step_reset hin] at h
    cases h
    exact ⟨[], (List.append_nil _).symm, (step_reset rfl).trans (by rw [List.append_nil]; rfl)⟩
  · rw [step_shutdown hin] at h
    cases h
    exact ⟨[], (List.append_nil _).symm, (step_shutdown rfl).trans (by rw [List.append_nil]; rfl)⟩
  · obtain ⟨hp, rfl⟩ := step_transaction_next hin h
    have hother := step_transaction (s := { s with inputs := presentItem now item :: rest', outputs := past }) rfl hp
    refine ⟨_, serve_outputs _ _, hother.trans ?_⟩
    rw [serve, transact_congr item (s' := taken s (presentItem now item) rest) rfl rfl rfl]
    rfl

end Sys2Proof
end

section
/-! SUPPORT. Proofs of the statements about single pulse codes and sequences of them (41_pulse_demodulator.md R102-R134). -/

namespace Sys2Proof

theorem decodeCode_eq_skip_iff (cfg : Config) (b : Byte) : decodeCode cfg b = .skip ↔ b = cfg.skipByte := by
  unfold decodeCode classOf
  split_ifs <;> simp_all [classInstr]

end Sys2Proof

namespace Sys2Proof.Machine

/-! ### Skips -/

theorem demodByte_skipByte (cfg : Config) (ds : DS) (now : Nat) : demodByte cfg ds cfg.skipByte now = (ds, none) := by
  rw [demodByte, classOf, if_pos rfl]
  rfl

/-! ### Durations beyond the windows -/

theorem inTol_eq_false_of_lt {cfg : Config} {e ref : Nat} (h : ref + cfg.tol < e) : inTol cfg e ref = false := by
  rw [← Bool.not_eq_true, inTol_iff]
  omega

/-- With a carry counted, no code is shorter than the shortest one (R108). -/
theorem elapsed_ge_of_carry (cfg : Config) (n : Units) {a : Nat} (ha : 1 ≤ a) :
    unitsTime cfg 0#7 + carryTime cfg 1 ≤ elapsed cfg n a :=
  Nat.add_le_add (ceilDiv_mono _ (Nat.mul_le_mul_right _ (Nat.succ_le_succ (Nat.zero_le _))))
    (ceilDiv_mono _ (Nat.mul_le_mul_right _ (Nat.mul_le_mul_right _ ha)))

/-- The shortest code with a carry lies beyond every window, the header's being the farthest. -/
structure CarryExceedsWindows (cfg : Config) : Prop where
  space : cfg.tSpace ≤ cfg.tHeader
  pulse : cfg.tPulse ≤ cfg.tHeader
  carry : cfg.tHeader + cfg.tol < unitsTime cfg 0#7 + carryTime cfg 1

theorem no_window_of_carry {cfg : Config} (h : CarryExceedsWindows cfg) (n : Units) {a : Nat} (ha : 1 ≤ a) :
    inSpaceWindow cfg (elapsed cfg n a) = false ∧ inPulseWindow cfg (elapsed cfg n a) = false ∧
      inHeaderWindow cfg (elapsed cfg n a) = false := by
  obtain ⟨hspace, hpulse, hcarry⟩ := h
  have hlong : cfg.tHeader + cfg.tol < elapsed cfg n a := hcarry.trans_le (elapsed_ge_of_carry cfg n ha)
  exact ⟨inTol_eq_false_of_lt (by omega), inTol_eq_false_of_lt (by omega), inTol_eq_false_of_lt hlong⟩

/-- The state rules see of a duration which windows it lies in. -/
theorem stateRule_congr_windows {cfg : Config} {e e' : Nat} (hspace : inSpaceWindow cfg e = inSpaceWindow cfg e')
    (hpulse : inPulseWindow cfg e = inPulseWindow cfg e') (hheader : inHeaderWindow cfg e = inHeaderWindow cfg e')
    (ds : DS) (p : Bool) (now : Nat) : stateRule cfg ds p e now = stateRule cfg ds p e' now := by
  simp only [stateRule, ruleIdle, ruleHeaderSpace, ruleDataMark, ruleDataSpace, ruleTerm, hspace, hpulse, hheader]

/-- R133: two non-zero accumulators are not told apart. -/
theorem evaluate_congr_carry {cfg : Config} (h : CarryExceedsWindows cfg) (ds : DS) (p : Bool) (n : Units) (now : Nat)
    {a b : Nat} (ha : 1 ≤ a) (hb : 1 ≤ b) :
    evaluate cfg { ds with accCnt := a } p n now = evaluate cfg { ds with accCnt := b } p n now := by
  obtain ⟨hspace, hpulse, hheader⟩ := no_window_of_carry h n ha
  obtain ⟨hspace', hpulse', hheader'⟩ := no_window_of_carry h n hb
  exact stateRule_congr_windows (hspace.trans hspace'.symm) (hpulse.trans hpulse'.symm)
    (hheader.trans hheader'.symm) _ p now

/-! ### More outcomes of the state rules -/

section Rules

variable {cfg : Config} {ds : DS} {e now : Nat}

theorem ruleIdle_space : ruleIdle cfg ds false e now = ds := rfl

theorem ruleHeaderSpace_mark : ruleHeaderSpace cfg ds true e = protocolReset ds := rfl

theorem ruleHeaderSpace_outside (he : inSpaceWindow cfg e = false) :
    ruleHeaderSpace cfg ds false e = protocolReset ds := by
  simp [ruleHeaderSpace, he]

end Rules

/-- A code that none of the rules of R134 takes resets the protocol. -/
theorem stateRule_resets {cfg : Config} {ds : DS} {p : Bool} {e : Nat} (hlower : -1 ≤ ds.bitPos)
    (hupper : ds.bitPos ≤ cfg.lastPos) (hr : ds.receiving = true)
    (hheader : ¬(p = false ∧ ds.bitPos = -1 ∧ inSpaceWindow cfg e = true))
    (hmark : ¬(p = true ∧ 0 ≤ ds.bitPos ∧ ds.bitPos % 2 = 0 ∧
      (inPulseWindow cfg e = true ∨ inSpaceWindow cfg e = true)))
    (hspace : ¬(p = false ∧ 0 ≤ ds.bitPos ∧ ds.bitPos % 2 = 1 ∧ ds.bitPos < cfg.lastPos ∧ inSpaceWindow cfg e = true))
    (hterm : ¬(p = false ∧ ds.bitPos = cfg.lastPos)) (now : Nat) :
    stateRule cfg ds p e now = (protocolReset ds, none) := by
  obtain ⟨hidle, -⟩ | ⟨hidle, -⟩ | ⟨-, h⟩ | ⟨-, hpos, hp, he, -⟩ | ⟨-, hpos, heven, hp, he⟩ |
      ⟨-, hpos, hodd, hlast, hp, he, -⟩ | ⟨-, hpos, hodd, hlast, hp, -⟩ := stateRule_cases cfg ds p e now
  · exact nomatch hr.symm.trans hidle
  · exact nomatch hr.symm.trans hidle
  · exact h
  · exact absurd ⟨hp, hpos, he⟩ hheader
  · exact absurd ⟨hp, by omega, heven, he.imp And.left And.left⟩ hmark
  · exact absurd ⟨hp, by omega, by omega, hlast, he⟩ hspace
  · exact absurd ⟨hp, by omega⟩ hterm

/-- What an evaluated code that completes has done. -/
theorem exec_evaluated {s t : State} {p : Bool} {n : Units} (h : exec (if p then .mark n else .space n) s = .next t) :
    t.ds = (evaluate s.cfg s.ds p n s.now).1 ∧ t.events = s.events ++ (evaluate s.cfg s.ds p n s.now).2.toList := by
  rw [exec_next_ds h, exec_next_events h]
  cases p <;> exact ⟨rfl, rfl⟩

/-! ### The time input -/

/-- Outside TERM, and in IDLE before a first command, the rules do not read the time (R177). -/
theorem stateRule_congr_now {cfg : Config} {ds : DS} (hcmd : ds.lastCmd = none ∨ ds.receiving = true)
    (hpos : ds.receiving = true → ds.bitPos < cfg.lastPos) (p : Bool) (e now now' : Nat) :
    stateRule cfg ds p e now = stateRule cfg ds p e now' := by
  unfold stateRule
  cases hr : ds.receiving with
  | false =>
    have hnone : ds.lastCmd = none := by simpa [hr] using hcmd
    simp only [if_true, ruleIdle, hnone, debounceOk_none]
  | true => simp only [Bool.true_eq_false, if_false, hpos hr, if_true]

theorem demodByte_congr_now {cfg : Config} {ds : DS} (hcmd : ds.lastCmd = none ∨ ds.receiving = true)
    (hpos : ds.receiving = true → ds.bitPos < cfg.lastPos) (b : Byte) (now now' : Nat) :
    demodByte cfg ds b now = demodByte cfg ds b now' := by
  have hrule := fun p n => stateRule_congr_now (ds := clearAcc ds) hcmd hpos p (elapsed cfg n ds.accCnt) now now'
  simp only [demodByte, demodMark, demodSpace, evaluate, hrule]

end Sys2Proof.Machine

namespace Sys2Proof

open Machine

/-! ### The obligations -/

/-- Settles O28: a carry exceeds every window, so the windows are the same for all non-zero accumulators. -/
theorem carryPutsEveryCodeOutsideTheWindows : Obligations.CarryPutsEveryCodeOutsideTheWindows := by
  unfold Obligations.CarryPutsEveryCodeOutsideTheWindows
  refine ⟨fun cfg hspace hpulse hcarry => ?_, by decide⟩
  have hlong : CarryExceedsWindows cfg := ⟨hspace, hpulse, hcarry⟩
  refine ⟨fun n a ha => no_window_of_carry hlong n ha, fun s n a b i hc hp ha hb hi => ?_⟩
  subst hc
  rw [exec_present (by exact hp), exec_present (by exact hp)]
  obtain rfl | rfl := hi
  · simp only [effect, evaluate_congr_carry hlong s.ds true n s.now ha hb]
  · simp only [effect, evaluate_congr_carry hlong s.ds false n s.now ha hb]

/-- Settles O29: by induction on the sequence; a skip keeps the state. -/
theorem skipsAreTransparentInASequence : Obligations.SkipsAreTransparentInASequence := by
  unfold Obligations.SkipsAreTransparentInASequence
  intro cfg now ds bytes
  induction bytes generalizing ds with
  | nil => rfl
  | cons b bs ih =>
    by_cases hb : b = cfg.skipByte
    · subst hb
      rw [List.filter_cons_of_neg (by simp), demodCodes_cons, demodByte_skipByte]
      exact ih ds
    · rw [List.filter_cons_of_pos (by simpa using hb), demodCodes_cons, demodCodes_cons, ← ih]

/-- Settles O37: the reset is what the case analysis of the rules leaves. -/
theorem timingViolationResetsSilently : Obligations.TimingViolationResetsSilently := by
  unfold Obligations.TimingViolationResetsSilently
  intro s t p n _ hinv hr h hheader hmark hspace hterm
  obtain ⟨hds, hevents⟩ := exec_evaluated h
  have hreset := stateRule_resets (ds := clearAcc s.ds) hinv.bitPosLower hinv.bitPosUpper hr hheader hmark hspace hterm
  rw [evaluate, hreset] at hds hevents
  rw [hds, hevents]
  simp

/-- Settles O56: a legal state outside TERM lies before the last position. -/
theorem timeIsReadOnlyByDebounceAndEmit : Obligations.TimeIsReadOnlyByDebounceAndEmit := by
  unfold Obligations.TimeIsReadOnlyByDebounceAndEmit
  intro s t b now _ hinv hcmd hterm h
  have hpos : s.ds.bitPos < s.cfg.lastPos := lt_of_le_of_ne hinv.bitPosUpper hterm
  obtain ⟨hp, -⟩ := exec_next h
  rw [exec_decodeCode hp] at h
  cases h
  have hother := exec_decodeCode (s := { s with now := now }) hp b
  rw [demodByte_congr_now hcmd (fun _ => hpos) b now s.now] at hother
  exact hother

/-- Settles O23: the class of the skip byte, and an effect that keeps `DS`. -/
theorem skipChangesNothing : Obligations.SkipChangesNothing := by
  unfold Obligations.SkipChangesNothing
  exact ⟨decodeCode_eq_skip_iff, rfl, fun s hp => exec_present hp .skip⟩

/-- Settles O27: the windows as bounds on exact quotients. -/
theorem windowRangesInUnitCounts : Obligations.WindowRangesInUnitCounts := by
  unfold Obligations.WindowRangesInUnitCounts
  intro cfg hcfg n _
  simp only [inSpaceWindow, inPulseWindow, inHeaderWindow, inTol_iff, elapsed, unitsTime, carryTime, ceilDiv]
  obtain rfl | rfl := hcfg <;> simp only [Config.default] <;> omega

/-- Settles O31: the IDLE rule asks for a mark. -/
theorem idleSpaceOnlyClearsAccumulator : Obligations.IdleSpaceOnlyClearsAccumulator := by
  unfold Obligations.IdleSpaceOnlyClearsAccumulator
  intro s n hp hr
  apply exec_space hp
  rw [evaluate_idle hr, ruleIdle_space]
  rfl

/-- Settles O33: the other two outcomes of the HSPACE rule. -/
theorem headerSpaceOtherwiseResets : Obligations.HeaderSpaceOtherwiseResets := by
  unfold Obligations.HeaderSpaceOtherwiseResets
  intro s n hp hr hpos
  refine ⟨exec_mark hp ?mark, fun hnot => exec_space hp ?outside⟩ <;> rw [evaluate_headerSpace hr hpos]
  case mark => rw [ruleHeaderSpace_mark, protocolReset_clearAcc]
  case outside =>
    rw [← inTol_iff_abs, Bool.not_eq_true] at hnot
    rw [ruleHeaderSpace_outside hnot, protocolReset_clearAcc]

end Sys2Proof
end

section
/-! SUPPORT. Proofs of the statements about the bit buffer and the named states (10_state.md R24-R28,
41_pulse_demodulator.md R124). -/

namespace Sys2Proof.Machine

/-! ### The bit buffer as a number -/

/-- The front of the buffer is its most significant bit. -/
theorem parse_cons (b : Bool) (xs : List Bool) : parse (b :: xs) = b.toNat * 2 ^ xs.length + parse xs := by
  induction xs using List.reverseRecOn with
  | nil => simp [parse]
  | append_singleton ys c ih =>
    rw [← List.cons_append, parse_append, parse_append, ih, List.length_append, List.length_singleton, Nat.pow_succ]
    ring

/-- Bits in decoding order, each inserted at the front. -/
theorem parse_reverse_cons (b : Bool) (bits : List Bool) :
    parse (b :: bits).reverse = 2 * parse bits.reverse + b.toNat := by
  rw [List.reverse_cons, parse_append]

/-- The register shifts down by one and takes the new bit on top (R26). -/
theorem srInsert_toNat (sr : BitVec 7) (v : Bool) : (srInsert sr v).toNat = v.toNat * 64 + sr.toNat / 2 := by
  revert sr v; decide

/-- After `k` insertions the register holds the number of the buffer in its top `k` bits. -/
theorem srInsert_foldl (bits : List Bool) (h : bits.length ≤ 7) :
    (bits.foldl srInsert 0#7).toNat = parse bits.reverse * 2 ^ (7 - bits.length) := by
  induction bits using List.reverseRecOn with
  | nil => rfl
  | append_singleton ys v ih =>
    rw [List.length_append, List.length_singleton] at h
    have hroom : 7 - ys.length = (6 - ys.length) + 1 := by omega
    have htop : 2 ^ ys.length * 2 ^ (6 - ys.length) = 64 := by
      rw [← Nat.pow_add, Nat.add_sub_cancel' (by omega)]
    have hhalf : parse ys.reverse * 2 ^ (7 - ys.length) / 2 = parse ys.reverse * 2 ^ (6 - ys.length) := by
      rw [hroom, Nat.pow_succ, ← Nat.mul_assoc, Nat.mul_div_cancel _ (by decide)]
    rw [List.foldl_append, List.foldl_cons, List.foldl_nil, srInsert_toNat, ih (by omega), hhalf, List.reverse_append,
      List.reverse_singleton, List.singleton_append, parse_cons, List.length_reverse, List.length_append,
      List.length_singleton, Nat.add_mul, Nat.mul_assoc, Nat.sub_add_eq, Nat.sub_right_comm, htop]

/-! ### The named states -/

/-- Named states are told apart by their pairs, if there is a data bit at all. -/
theorem namedState_pair_injective {n : Nat} (hn : 0 < n) {x y : NamedState n} (h : x.pair = y.pair) : x = y := by
  cases x with
  | idle => cases y <;> simp [NamedState.pair] at h ⊢
  | hspace => cases y <;> simp [NamedState.pair] at h ⊢ <;> omega
  | mark k => cases y <;> simp [NamedState.pair] at h ⊢ <;> omega
  | space k => cases y <;> simp [NamedState.pair] at h ⊢ <;> omega
  | term => cases y <;> simp [NamedState.pair] at h ⊢ <;> omega

/-- Every legal state has a name: the position tells it, by its parity and by the two ends. -/
theorem exists_namedState {cfg : Config} (hc : cfg.wf = true) {ds : DS} (hinv : ds.Inv cfg) :
    ∃ x : NamedState cfg.nBits, x.pair = (ds.receiving, ds.bitPos) := by
  obtain ⟨-, -, -, hlast⟩ := cfg.wf_iff.mp hc
  have hlower := hinv.bitPosLower
  have hupper := hinv.bitPosUpper
  cases hr : ds.receiving with
  | false => exact ⟨.idle, by rw [(hinv.idle hr).1]; rfl⟩
  | true =>
    by_cases hspace : ds.bitPos = -1
    · exact ⟨.hspace, by rw [hspace]; rfl⟩
    obtain heven | hodd := Int.emod_two_eq_zero_or_one ds.bitPos
    · refine ⟨.mark ⟨(ds.bitPos / 2).toNat, by omega⟩, Prod.ext rfl ?_⟩
      change 2 * ((ds.bitPos / 2).toNat : Int) = ds.bitPos
      omega
    by_cases hterm : ds.bitPos = cfg.lastPos
    · refine ⟨.term, Prod.ext rfl ?_⟩
      change 2 * (cfg.nBits : Int) - 1 = ds.bitPos
      omega
    · refine ⟨.space ⟨(ds.bitPos / 2).toNat, by omega⟩, Prod.ext rfl ?_⟩
      change 2 * ((ds.bitPos / 2).toNat : Int) + 1 = ds.bitPos
      omega

end Sys2Proof.Machine

namespace Sys2Proof

open Machine

/-! ### The obligations -/

/-- Settles O38: by induction on the bits; the sum is shifted by the bit decoded first. -/
theorem firstDecodedBitIsLeastSignificant : Obligations.FirstDecodedBitIsLeastSignificant := by
  unfold Obligations.FirstDecodedBitIsLeastSignificant
  refine fun bits => ⟨?_, parse_lt bits⟩
  induction bits with
  | nil => rfl
  | cons b bs ih =>
    rw [parse_reverse_cons, ih, List.length_cons, Finset.sum_range_succ', Finset.mul_sum]
    simp [Nat.pow_succ, Nat.mul_comm, Nat.mul_assoc]

/-- Settles O40: seven insertions fill the register. -/
theorem shiftRegisterHoldsTheParsedBuffer : Obligations.ShiftRegisterHoldsTheParsedBuffer := by
  unfold Obligations.ShiftRegisterHoldsTheParsedBuffer
  intro bits hlen
  rw [srInsert_foldl bits hlen.le, hlen, List.foldl_flip_cons_eq_append', List.append_nil, Nat.sub_self, Nat.pow_zero,
    Nat.mul_one]

/-- Settles O48: a legal state has a name, and pairs tell names apart. -/
theorem legalStateHasOneName : Obligations.LegalStateHasOneName := by
  unfold Obligations.LegalStateHasOneName
  intro cfg ds hc hinv
  obtain ⟨-, -, -, hlast⟩ := cfg.wf_iff.mp hc
  obtain ⟨x, hx⟩ := exists_namedState hc hinv
  exact ⟨x, hx, fun y hy => namedState_pair_injective (by omega) (hy.trans hx.symm)⟩

end Sys2Proof
end

section
/-! SUPPORT. The rules of the whole machine: what a step keeps, and when it puts out a command (10_state.md R25-R27,
41_pulse_demodulator.md R125, R126, 70_reset_and_hazards.md R203, R209). -/

namespace Sys2Proof.Machine

/-! ### When a code puts out a command -/

/-- A code keeps the last command, or it is the terminal space of a frame, which puts out its command. -/
theorem demodByte_outcome (cfg : Config) (ds : DS) (b : Byte) (now : Nat) :
    ((demodByte cfg ds b now).2 = none ∧ (demodByte cfg ds b now).1.lastCmd = ds.lastCmd) ∨
    (ds.receiving = true ∧ cfg.lastPos ≤ ds.bitPos ∧
      demodByte cfg ds b now = ({ DS.reset with lastCmd := some now }, some (emitEvent ds now))) := by
  obtain h | h | ⟨p, n, h⟩ := demodByte_cases cfg ds b now
  · exact .inl (by rw [h]; exact ⟨rfl, rfl⟩)
  · exact .inl (by rw [h]; exact ⟨rfl, rfl⟩)
  · rw [h, evaluate]
    obtain ⟨-, hrule⟩ | ⟨-, -, -, -, hrule⟩ | ⟨-, hrule⟩ | ⟨-, -, -, -, hrule⟩ | ⟨-, -, -, -, ⟨-, hrule⟩ | ⟨-, hrule⟩⟩ |
      ⟨-, -, -, -, -, -, hrule⟩ | ⟨hr, -, -, hlast, -, hrule⟩ :=
      stateRule_cases cfg (clearAcc ds) p (elapsed cfg n ds.accCnt) now <;> rw [hrule]
    case inr.inr.inr.inr.inr.inr => exact .inr ⟨hr, hlast, rfl⟩
    all_goals exact .inl ⟨rfl, rfl⟩

/-- In IDLE with the debounce shut a code changes the accumulator alone. -/
theorem demodByte_shut {cfg : Config} {ds : DS} {now : Nat} (hr : ds.receiving = false)
    (hshut : debounceOk cfg ds.lastCmd now = false) (b : Byte) :
    ∃ acc, demodByte cfg ds b now = ({ ds with accCnt := acc }, none) := by
  obtain h | h | ⟨p, n, h⟩ := demodByte_cases cfg ds b now
  · exact ⟨_, h⟩
  · exact ⟨_, h⟩
  · refine ⟨0, h.trans ?_⟩
    rw [evaluate_idle hr, ruleIdle]
    simp [hshut, clearAcc]

/-- In IDLE with the debounce shut a sequence of codes changes the accumulator alone (R203). -/
theorem demodCodes_shut {cfg : Config} {ds : DS} {now : Nat} (hr : ds.receiving = false)
    (hshut : debounceOk cfg ds.lastCmd now = false) (bs : List Byte) :
    ∃ acc, demodCodes cfg now ds bs = ({ ds with accCnt := acc }, []) := by
  induction bs generalizing ds with
  | nil => exact ⟨_, rfl⟩
  | cons b bs ih =>
    obtain ⟨acc, hb⟩ := demodByte_shut hr hshut b
    obtain ⟨acc', hbs⟩ := ih (ds := { ds with accCnt := acc }) hr hshut
    exact ⟨acc', by rw [demodCodes_cons, hb, hbs]; rfl⟩

/-- A command shuts the debounce at its own time. -/
theorem debounceOk_self (cfg : Config) (now : Nat) : debounceOk cfg (some now) now = false := by
  rw [← Bool.not_eq_true, debounceOk_some]
  omega

/-- After its command a sequence of codes at one time changes the accumulator alone (R126). -/
theorem demodCodes_after_command (cfg : Config) (now : Nat) (bs : List Byte) :
    ∃ acc, demodCodes cfg now { DS.reset with lastCmd := some now } bs =
      ({ DS.reset with accCnt := acc, lastCmd := some now }, []) :=
  demodCodes_shut (ds := { DS.reset with lastCmd := some now }) rfl (debounceOk_self cfg now) bs

/-- A sequence of codes at one time keeps the last command, or puts out one command: that of the frame whose terminal space
it reaches, `d` being the state there. -/
theorem demodCodes_outcome (cfg : Config) (now : Nat) (ds : DS) (bs : List Byte) :
    ((demodCodes cfg now ds bs).2 = [] ∧ (demodCodes cfg now ds bs).1.lastCmd = ds.lastCmd) ∨
    ∃ xs d, d = (demodCodes cfg now ds xs).1 ∧ d.receiving = true ∧ cfg.lastPos ≤ d.bitPos ∧ d.lastCmd = ds.lastCmd ∧
      (demodCodes cfg now ds bs).2 = [emitEvent d now] ∧ (demodCodes cfg now ds bs).1.lastCmd = some now := by
  induction bs generalizing ds with
  | nil => exact .inl ⟨rfl, rfl⟩
  | cons b bs ih =>
    rw [demodCodes_cons]
    obtain ⟨hnone, hcmd⟩ | ⟨hr, hlast, hb⟩ := demodByte_outcome cfg ds b now
    · rw [hnone, ← hcmd]
      obtain h | ⟨xs, d, hd, h⟩ := ih (demodByte cfg ds b now).1
      · exact .inl h
      · exact .inr ⟨b :: xs, d, by rw [demodCodes_cons, hd], h⟩
    · obtain ⟨acc, hbs⟩ := demodCodes_after_command cfg now bs
      refine .inr ⟨[], ds, rfl, hr, hlast, rfl, ?_⟩
      rw [hb, hbs]
      exact ⟨rfl, rfl⟩

/-! ### The legal demodulator states -/

section Legal

variable {cfg : Config} {ds : DS}

theorem dsReset_inv (cfg : Config) : DS.reset.Inv cfg where
  idle _ := ⟨rfl, rfl⟩
  bitPosLower := le_refl _
  bitPosUpper := by simp only [dsReset_bitPos]; omega
  bitBufLength := rfl
  accCnt := Nat.zero_le _

/-- The counter is no part of the frame. -/
theorem DS.Inv.withAccCnt (h : ds.Inv cfg) {acc : Nat} (hacc : acc ≤ 2 ^ cfg.accW - 1) :
    DS.Inv cfg { ds with accCnt := acc } where
  idle := h.idle
  bitPosLower := h.bitPosLower
  bitPosUpper := h.bitPosUpper
  bitBufLength := h.bitBufLength
  accCnt := hacc

/-- The reset needs nothing of the state but the counter; an emit before it writes the last command alone. -/
theorem protocolReset_inv (h : ds.accCnt ≤ 2 ^ cfg.accW - 1) : (protocolReset ds).Inv cfg where
  idle _ := ⟨rfl, rfl⟩
  bitPosLower := le_refl _
  bitPosUpper := by simp only [protocolReset_bitPos]; omega
  bitBufLength := rfl
  accCnt := h

theorem header_inv (h : ds.Inv cfg) (hr : ds.receiving = false) :
    DS.Inv cfg { ds with receiving := true, bitPos := -1 } where
  idle := nofun
  bitPosLower := le_refl _
  bitPosUpper := by change (-1 : Int) ≤ cfg.lastPos; omega
  bitBufLength := by rw [(h.idle hr).2]; rfl
  accCnt := h.accCnt

theorem headerSpace_inv (h : ds.Inv cfg) (hr : ds.receiving = true) (hpos : ds.bitPos = -1) :
    DS.Inv cfg { ds with bitPos := 0 } where
  idle hidle := nomatch hr.symm.trans hidle
  bitPosLower := by change (-1 : Int) ≤ 0; decide
  bitPosUpper := Int.natCast_nonneg _
  bitBufLength := by rw [h.bitBufLength, hpos]; rfl
  accCnt := h.accCnt

/-- An even position is not the last one, and its bit completes a pair of positions. -/
theorem pushBit_inv (hc : cfg.wf = true) (h : ds.Inv cfg) (hr : ds.receiving = true) (heven : ds.bitPos % 2 = 0)
    (v : Bool) : (pushBit ds v).Inv cfg := by
  obtain ⟨-, -, -, hlast⟩ := cfg.wf_iff.mp hc
  have hlower := h.bitPosLower
  have hupper := h.bitPosUpper
  have hlength := h.bitBufLength
  constructor <;> simp only [pushBit_receiving, pushBit_bitPos, pushBit_bitBuf, pushBit_accCnt, List.length_cons]
  case idle => exact fun hidle => nomatch hr.symm.trans hidle
  case accCnt => exact h.accCnt
  all_goals omega

theorem advance_inv (h : ds.Inv cfg) (hr : ds.receiving = true) (hodd : ds.bitPos % 2 ≠ 0)
    (hlast : ds.bitPos < cfg.lastPos) : (advance ds).Inv cfg := by
  have hlower := h.bitPosLower
  have hlength := h.bitBufLength
  constructor <;> simp only [advance_receiving, advance_bitPos, advance_bitBuf, advance_accCnt]
  case idle => exact fun hidle => nomatch hr.symm.trans hidle
  case accCnt => exact h.accCnt
  all_goals omega

theorem stateRule_inv (hc : cfg.wf = true) (h : ds.Inv cfg) (p : Bool) (e now : Nat) :
    (stateRule cfg ds p e now).1.Inv cfg := by
  obtain ⟨-, hrule⟩ | ⟨hr, -, -, -, hrule⟩ | ⟨-, hrule⟩ | ⟨hr, hpos, -, -, hrule⟩ |
    ⟨hr, -, heven, -, ⟨-, hrule⟩ | ⟨-, hrule⟩⟩ | ⟨hr, -, hodd, hlast, -, -, hrule⟩ | ⟨-, -, -, -, -, hrule⟩ :=
    stateRule_cases cfg ds p e now <;> rw [hrule]
  · exact h
  · exact header_inv h hr
  · exact protocolReset_inv h.accCnt
  · exact headerSpace_inv h hr hpos
  · exact pushBit_inv hc h hr heven true
  · exact pushBit_inv hc h hr heven false
  · exact advance_inv h hr hodd hlast
  · exact protocolReset_inv (ds := emitCommand ds now) h.accCnt

theorem demodByte_inv (hc : cfg.wf = true) (h : ds.Inv cfg) (b : Byte) (now : Nat) :
    (demodByte cfg ds b now).1.Inv cfg := by
  obtain hb | hb | ⟨p, n, hb⟩ := demodByte_cases cfg ds b now <;> rw [hb]
  · exact h
  · exact h.withAccCnt (satInc_le _ _)
  · exact stateRule_inv hc (h.withAccCnt (Nat.zero_le _)) p _ now

theorem demodCodes_inv (hc : cfg.wf = true) (h : ds.Inv cfg) (now : Nat) (bs : List Byte) :
    (demodCodes cfg now ds bs).1.Inv cfg :=
  demodCodes_keeps (P := DS.Inv cfg) cfg now (fun _ b hds => demodByte_inv hc hds b now) ds bs h

/-- A legal frame at its last position has `NBITS` bits, so its command is a code of that width (R150). -/
theorem emitEvent_wf (hc : cfg.wf = true) (h : ds.Inv cfg) (hlast : cfg.lastPos ≤ ds.bitPos) {now : Nat}
    (hnow : now < 2 ^ cfg.tsW) : (emitEvent ds now).wf cfg := by
  obtain ⟨-, -, -, hbits⟩ := cfg.wf_iff.mp hc
  have hlength : ds.bitBuf.length = cfg.nBits := by
    have := h.bitBufLength
    have := h.bitPosUpper
    omega
  exact ⟨hlength ▸ parse_lt ds.bitBuf, rfl, hnow⟩

end Legal

/-! ### The spacing of the demodulator states -/

/-- The spacing of a demodulator state at a time: `State.Spaced` without the stream. -/
structure DS.Apart (cfg : Config) (now : Nat) (ds : DS) : Prop where
  past : ∀ l, ds.lastCmd = some l → l ≤ now
  apart : ∀ l, ds.lastCmd = some l → ds.receiving = true → l + cfg.debounce < now

section Spacing

variable {cfg : Config} {ds : DS} {now : Nat}

theorem dsReset_apart (cfg : Config) (now : Nat) : DS.reset.Apart cfg now := ⟨nofun, nofun⟩

/-- Time that passes keeps the spacing. -/
theorem DS.Apart.later (h : ds.Apart cfg now) {now' : Nat} (hle : now ≤ now') : ds.Apart cfg now' where
  past l hl := (h.past l hl).trans hle
  apart l hl hr := (h.apart l hl hr).trans_le hle

/-- The spacing is a matter of the last command and of whether a frame is being received. -/
theorem DS.Apart.congr (h : ds.Apart cfg now) {ds' : DS} (hcmd : ds'.lastCmd = ds.lastCmd)
    (hr : ds'.receiving = true → ds.receiving = true) : ds'.Apart cfg now where
  past l hl := h.past l (hcmd ▸ hl)
  apart l hl hr' := h.apart l (hcmd ▸ hl) (hr hr')

/-- A header opens a frame only with the debounce open (R111). -/
theorem DS.Apart.of_debounceOk (hpast : ∀ l, ds.lastCmd = some l → l ≤ now)
    (hopen : debounceOk cfg ds.lastCmd now = true) : ds.Apart cfg now where
  past := hpast
  apart l hl _ := by rwa [hl, debounceOk_some] at hopen

theorem stateRule_apart (h : ds.Apart cfg now) (p : Bool) (e : Nat) : (stateRule cfg ds p e now).1.Apart cfg now := by
  obtain ⟨-, hrule⟩ | ⟨-, -, hopen, -, hrule⟩ | ⟨-, hrule⟩ | ⟨-, -, -, -, hrule⟩ |
    ⟨-, -, -, -, ⟨-, hrule⟩ | ⟨-, hrule⟩⟩ | ⟨-, -, -, -, -, -, hrule⟩ | ⟨-, -, -, -, -, hrule⟩ :=
    stateRule_cases cfg ds p e now <;> rw [hrule]
  · exact h
  · exact .of_debounceOk h.past hopen
  · exact h.congr rfl nofun
  · exact h.congr rfl id
  · exact h.congr rfl id
  · exact h.congr rfl id
  · exact h.congr rfl id
  · exact ⟨fun l hl => (Option.some.inj hl).ge, nofun⟩

theorem demodByte_apart (h : ds.Apart cfg now) (b : Byte) : (demodByte cfg ds b now).1.Apart cfg now := by
  obtain hb | hb | ⟨p, n, hb⟩ := demodByte_cases cfg ds b now <;> rw [hb]
  · exact h
  · exact h.congr rfl id
  · exact stateRule_apart (ds := clearAcc ds) (h.congr rfl id) p _

theorem demodCodes_apart (h : ds.Apart cfg now) (bs : List Byte) : (demodCodes cfg now ds bs).1.Apart cfg now :=
  demodCodes_keeps (P := DS.Apart cfg now) cfg now (fun _ b hds => demodByte_apart hds b) ds bs h

end Spacing

/-! ### What a step does to the demodulator, the time input and the stream -/

section Step

variable {s t : State}

/-- A step does to `DS` and the event output what some sequence of codes does at its time, or it is a block reset or a
shutdown. -/
theorem step_demodCodes (h : step s = .next t) :
    (∃ bs, t.ds = (demodCodes s.cfg t.now s.ds bs).1 ∧ t.events = s.events ++ (demodCodes s.cfg t.now s.ds bs).2) ∨
    ((∃ rest, s.inputs = .reset :: rest ∨ s.inputs = .shutdown :: rest) ∧ t.ds = DS.reset ∧ t.events = s.events) := by
  obtain ⟨-, rfl⟩ | ⟨rest, hin, rfl⟩ | ⟨rest, hin, rfl⟩ | ⟨now, item, rest, -, -, rfl⟩ := step_next_cases h
  · exact .inl ⟨[], rfl, (List.append_nil _).symm⟩
  · exact .inr ⟨⟨rest, .inl hin⟩, rfl, rfl⟩
  · exact .inr ⟨⟨rest, .inr hin⟩, rfl, rfl⟩
  · obtain ⟨bs, hds, hevents⟩ := transact_demodCodes (taken s (presentItem now item) rest) item
    exact .inl ⟨bs, hds, (serve_events _ _).trans (congrArg (s.events ++ ·) hevents)⟩

/-- A step takes the head of the stream and samples its time, or waits. -/
theorem step_stream (h : step s = .next t) :
    (s.inputs = [] ∧ t = s) ∨ ∃ x, s.inputs = x :: t.inputs ∧ t.now = sampled s.cfg s.now x := by
  obtain hwait | ⟨rest, hin, rfl⟩ | ⟨rest, hin, rfl⟩ | ⟨now, item, rest, hin, -, rfl⟩ := step_next_cases h
  · exact .inl hwait
  · exact .inr ⟨.reset, hin, rfl⟩
  · exact .inr ⟨.shutdown, hin, rfl⟩
  · exact .inr ⟨presentItem now item, hin, rfl⟩

theorem step_cfg (h : step s = .next t) : t.cfg = s.cfg :=
  (noStepWritesParametersOrPastOutputs s t h).1

theorem sampled_lt {cfg : Config} {now : Nat} (h : now < 2 ^ cfg.tsW) (x : Input) :
    sampled cfg now x < 2 ^ cfg.tsW := by
  unfold sampled
  cases x.time with
  | none => exact h
  | some u => exact timeIn_lt cfg u

theorem step_now_lt (h : step s = .next t) (hnow : s.now < 2 ^ s.cfg.tsW) : t.now < 2 ^ s.cfg.tsW := by
  obtain ⟨-, rfl⟩ | ⟨x, -, hsampled⟩ := step_stream h
  · exact hnow
  · exact hsampled ▸ sampled_lt hnow x

/-- The time duty, in the terms of the time input. -/
theorem timesFrom_cons (cfg : Config) (now : Nat) (x : Input) (rest : List Input) :
    TimesFrom cfg now (x :: rest) ↔ now ≤ sampled cfg now x ∧ TimesFrom cfg (sampled cfg now x) rest := by
  cases x <;> simp [TimesFrom, Input.time, sampled]

/-- Under the time duty a step does not go back in time, and leaves the duty for the rest of the stream. -/
theorem step_timesFrom (h : step s = .next t) (hduty : TimesFrom s.cfg s.now s.inputs) :
    s.now ≤ t.now ∧ TimesFrom s.cfg t.now t.inputs := by
  obtain ⟨-, rfl⟩ | ⟨x, hin, hnow⟩ := step_stream h
  · exact ⟨le_refl _, hduty⟩
  · rwa [hin, timesFrom_cons, ← hnow] at hduty

theorem State.Spaced.ds_apart (h : s.Spaced) : s.ds.Apart s.cfg s.now := ⟨h.past, h.apart⟩

end Step

end Sys2Proof.Machine

namespace Sys2Proof

open Machine

/-! ### The obligations -/

/-- Settles O45: the codes of a step keep `DS` legal, and a command comes from a legal state at the last position. -/
theorem everyStepKeepsTheInvariant : Obligations.EveryStepKeepsTheInvariant := by
  unfold Obligations.EveryStepKeepsTheInvariant
  intro s t ⟨hc, hinv, hnow, hcmd, hwf⟩ h
  have hnow' := step_now_lt h hnow
  suffices hnext : t.ds.Inv s.cfg ∧ (∀ l, t.ds.lastCmd = some l → l < 2 ^ s.cfg.tsW) ∧ ∀ e ∈ t.events, e.wf s.cfg by
    obtain ⟨hds, hlast, hevents⟩ := hnext
    rw [← step_cfg h] at hc hds hnow' hlast hevents
    exact ⟨hc, hds, hnow', hlast, hevents⟩
  obtain ⟨bs, hds, hevents⟩ | ⟨-, hds, hevents⟩ := step_demodCodes h <;> rw [hds, hevents]
  · refine ⟨demodCodes_inv hc hinv t.now bs, ?_⟩
    obtain ⟨hnone, hkeep⟩ | ⟨xs, d, rfl, -, hpos, -, hone, hset⟩ := demodCodes_outcome s.cfg t.now s.ds bs
    · rw [hnone, hkeep, List.append_nil]
      exact ⟨hcmd, hwf⟩
    · have hcommand := emitEvent_wf hc (demodCodes_inv hc hinv t.now xs) hpos hnow'
      rw [hone, hset]
      exact ⟨fun l hl => Option.some.inj hl ▸ hnow',
        List.forall_mem_append.mpr ⟨hwf, List.forall_mem_singleton.mpr hcommand⟩⟩
  · exact ⟨dsReset_inv s.cfg, nofun, hwf⟩

/-- Settles O46: the codes of a step keep the spacing at its time, which is no earlier than the time before it. -/
theorem everyStepKeepsTheSpacing : Obligations.EveryStepKeepsTheSpacing := by
  unfold Obligations.EveryStepKeepsTheSpacing
  intro s t hspaced h
  obtain ⟨hle, hduty⟩ := step_timesFrom h hspaced.duty
  suffices hnext : t.ds.Apart s.cfg t.now by
    rw [← step_cfg h] at hduty hnext
    exact ⟨hduty, hnext.past, hnext.apart⟩
  obtain ⟨bs, hds, -⟩ | ⟨-, hds, -⟩ := step_demodCodes h <;> rw [hds]
  · exact demodCodes_apart (hspaced.ds_apart.later hle) bs
  · exact dsReset_apart s.cfg t.now

/-- Settles O47: the state that the terminal space finds is spaced at the step's time and still has the old last command. -/
theorem commandsAreMoreThanTheDebounceApart : Obligations.CommandsAreMoreThanTheDebounceApart := by
  unfold Obligations.CommandsAreMoreThanTheDebounceApart
  intro s t hspaced h
  obtain ⟨hle, -⟩ := step_timesFrom h hspaced.duty
  obtain ⟨bs, hds, hevents⟩ | ⟨-, -, hevents⟩ := step_demodCodes h
  · refine ⟨_, hevents, ?_⟩
    obtain ⟨hnone, -⟩ | ⟨xs, d, rfl, hr, -, hcmd, hone, hset⟩ := demodCodes_outcome s.cfg t.now s.ds bs
    · rw [hnone]
      exact ⟨Nat.zero_le _, nofun⟩
    · have hapart := demodCodes_apart (hspaced.ds_apart.later hle) xs
      rw [hone, hds, hset]
      refine ⟨le_refl _, List.forall_mem_singleton.mpr ⟨rfl, rfl, fun l hl => ?_⟩⟩
      exact hapart.apart l (hcmd.trans hl) hr
  · exact ⟨[], hevents.trans (List.append_nil _).symm, Nat.zero_le _, nofun⟩

/-- Settles O41: the outcome of the packet's codes. -/
theorem atMostOneCommandPerPacket : Obligations.AtMostOneCommandPerPacket := by
  unfold Obligations.AtMostOneCommandPerPacket
  intro s codes len hp
  have hpacket := exec_present hp (.rxd codes len)
  refine ⟨_, _, hpacket, exec_next_events hpacket, ?_⟩
  change (demodCodes s.cfg s.now s.ds codes).2.length ≤ 1 ∧
    (∀ e ∈ (demodCodes s.cfg s.now s.ds codes).2,
      e.t = s.now ∧ (demodCodes s.cfg s.now s.ds codes).1.lastCmd = some s.now) ∧
    ((demodCodes s.cfg s.now s.ds codes).2 = [] → (demodCodes s.cfg s.now s.ds codes).1.lastCmd = s.ds.lastCmd)
  obtain ⟨hnone, hkeep⟩ | ⟨xs, d, -, -, -, -, hone, hset⟩ := demodCodes_outcome s.cfg s.now s.ds codes
  · rw [hnone]
    exact ⟨Nat.zero_le _, nofun, fun _ => hkeep⟩
  · rw [hone]
    exact ⟨le_refl _, List.forall_mem_singleton.mpr ⟨rfl, hset⟩, nofun⟩

/-- Settles O42: in IDLE with the debounce shut the codes change the accumulator alone. -/
theorem debounceSuppressesTheWholePacket : Obligations.DebounceSuppressesTheWholePacket := by
  unfold Obligations.DebounceSuppressesTheWholePacket
  intro s codes len l hp hr hcmd hwithin
  have hshut : debounceOk s.cfg s.ds.lastCmd s.now = false := by
    rw [hcmd, ← Bool.not_eq_true, debounceOk_some]
    omega
  obtain ⟨acc, hcodes⟩ := demodCodes_shut hr hshut codes
  have hpacket := exec_present hp (.rxd codes len)
  refine ⟨_, acc, hpacket, congrArg Prod.fst hcodes, (exec_next_events hpacket).trans ?_⟩
  exact (congrArg (s.events ++ Prod.snd ·) hcodes).trans (List.append_nil _)

/-- Settles O51: the outcome of the step's codes, or a reset. -/
theorem lastCommandChangesOnlyWithAnEvent : Obligations.LastCommandChangesOnlyWithAnEvent := by
  unfold Obligations.LastCommandChangesOnlyWithAnEvent
  intro s t h
  obtain ⟨bs, hds, hevents⟩ | ⟨hin, hds, hevents⟩ := step_demodCodes h
  · rw [hds, hevents]
    obtain ⟨-, hkeep⟩ | ⟨xs, d, -, -, -, -, hone, hset⟩ := demodCodes_outcome s.cfg t.now s.ds bs
    · exact .inl hkeep
    · exact .inr (.inl ⟨emitEvent d t.now, by rw [hone], rfl, hset⟩)
  · exact .inr (.inr ⟨hin, by rw [hds]; rfl, hevents⟩)

/-- Settles O2: the reset `DS` is legal and spaced, and nothing has been presented or put out. -/
theorem resetMeetsTheInvariants : Obligations.ResetMeetsTheInvariants := by
  unfold Obligations.ResetMeetsTheInvariants
  have hapart := dsReset_apart Config.default 0
  exact ⟨⟨Config.default_wf, dsReset_inv _, Nat.two_pow_pos _, nofun, nofun⟩, ⟨trivial, hapart.past, hapart.apart⟩,
    Config.default_wf⟩

end Sys2Proof
end

section
/-! SUPPORT. Proofs that a well-timed frame emits exactly its code, presented code by code or in receiver-data packets
(41_pulse_demodulator.md R121, R122, R141, 70_reset_and_hazards.md R201). -/

namespace Sys2Proof

/-- With the default skip byte, a code of at least one unit is no skip. -/
theorem codeByte_ne_skipByte {cfg : Config} (hc : cfg.skipByte = 0x80#8) (s : Bool) {n : Units} (hn : n ≠ 0#7) :
    codeByte s n ≠ cfg.skipByte := by
  rw [hc, ne_eq, codeByte_eq_skipByte]
  exact fun h => hn h.2

end Sys2Proof

namespace Sys2Proof.Machine

/-! ### Codes, each at its own time -/

/-- Pulse codes one after the other, each with the time it is demodulated at. -/
def demodTimed (cfg : Config) : DS → List (Byte × Nat) → DS × List Event
  | ds, [] => (ds, [])
  | ds, x :: xs =>
    ((demodTimed cfg (demodByte cfg ds x.1 x.2).1 xs).1,
      (demodByte cfg ds x.1 x.2).2.toList ++ (demodTimed cfg (demodByte cfg ds x.1 x.2).1 xs).2)

section Timed

variable {cfg : Config} {ds ds' : DS}

theorem demodTimed_cons_of_silent {x : Byte × Nat} (h : demodByte cfg ds x.1 x.2 = (ds', none)) (xs : List (Byte × Nat)) :
    demodTimed cfg ds (x :: xs) = demodTimed cfg ds' xs := by
  rw [demodTimed, h]
  rfl

theorem demodTimed_append (xs ys : List (Byte × Nat)) :
    demodTimed cfg ds (xs ++ ys) =
      ((demodTimed cfg (demodTimed cfg ds xs).1 ys).1,
        (demodTimed cfg ds xs).2 ++ (demodTimed cfg (demodTimed cfg ds xs).1 ys).2) := by
  induction xs generalizing ds with
  | nil => rfl
  | cons x xs ih => simp only [List.cons_append, demodTimed, ih, List.append_assoc]

theorem demodTimed_append_of_silent {xs : List (Byte × Nat)} (h : demodTimed cfg ds xs = (ds', []))
    (ys : List (Byte × Nat)) : demodTimed cfg ds (xs ++ ys) = demodTimed cfg ds' ys := by
  rw [demodTimed_append, h]
  rfl

/-- The codes of one packet have one time. -/
theorem demodTimed_oneTime (now : Nat) (bs : List Byte) :
    demodTimed cfg ds (bs.map (·, now)) = demodCodes cfg now ds bs := by
  induction bs generalizing ds with
  | nil => rfl
  | cons b bs ih => rw [List.map_cons, demodTimed, ih, demodCodes_cons]

/-- Skips can be taken out, whatever their times. -/
theorem demodTimed_live (xs : List (Byte × Nat)) :
    demodTimed cfg ds xs = demodTimed cfg ds (xs.filter (·.1 != cfg.skipByte)) := by
  induction xs generalizing ds with
  | nil => rfl
  | cons x xs ih =>
    by_cases hx : x.1 = cfg.skipByte
    · rw [List.filter_cons_of_neg (by simp [hx]), demodTimed_cons_of_silent (hx ▸ demodByte_skipByte cfg ds x.2), ih]
    · rw [List.filter_cons_of_pos (by simpa using hx), demodTimed, demodTimed, ih]

end Timed

/-! ### The parameters a frame is read under -/

/-- What the reading of a frame asks of the parameters: a code in a window is neither a skip nor a carry, no code is both a
one and a zero, a carry is no skip and puts the next code outside the windows. -/
structure ReadsFrames (cfg : Config) : Prop where
  wf : cfg.wf = true
  evaluated : ∀ (s : Bool) (n : Units),
    inSpaceWindow cfg (elapsed cfg n 0) = true ∨ inPulseWindow cfg (elapsed cfg n 0) = true ∨
      inHeaderWindow cfg (elapsed cfg n 0) = true → n ≠ cfg.satUnits ∧ codeByte s n ≠ cfg.skipByte
  oneOrZero : ∀ e, inSpaceWindow cfg e = true → inPulseWindow cfg e = false
  carryByte : ∀ s, codeByte s cfg.satUnits ≠ cfg.skipByte
  carry : CarryExceedsWindows cfg
  counts : 1 ≤ 2 ^ cfg.accW - 1

theorem carryExceedsWindows_default : CarryExceedsWindows Config.default := ⟨by decide, by decide, by decide⟩

/-- With the defaults a code in any of the windows is of 23 to 116 units. -/
theorem units_of_window (n : Units)
    (h : inSpaceWindow Config.default (elapsed Config.default n 0) = true ∨
      inPulseWindow Config.default (elapsed Config.default n 0) = true ∨
      inHeaderWindow Config.default (elapsed Config.default n 0) = true) : 23 ≤ n.toNat ∧ n.toNat ≤ 116 := by
  simp only [inSpaceWindow, inPulseWindow, inHeaderWindow, inTol_iff, elapsed, unitsTime, carryTime, ceilDiv,
    Config.default] at h
  omega

theorem readsFrames_default : ReadsFrames Config.default where
  wf := Config.default_wf
  evaluated s n h := by
    obtain ⟨hmin, hmax⟩ := units_of_window n h
    constructor
    · rintro rfl
      exact absurd hmax (by decide)
    · apply codeByte_ne_skipByte rfl
      rintro rfl
      exact absurd hmin (by decide)
  oneOrZero e h := by
    rw [← Bool.not_eq_true]
    simp only [inSpaceWindow, inPulseWindow, inTol_iff, Config.default] at h ⊢
    omega
  carryByte := by decide
  carry := carryExceedsWindows_default
  counts := by decide

/-- The reading of a frame asks nothing of `TERM13`. -/
theorem ReadsFrames.withTerm13 {cfg : Config} (h : ReadsFrames cfg) (term13 : Term13) :
    ReadsFrames { cfg with term13 := term13 } :=
  ⟨h.wf, h.evaluated, h.oneOrZero, h.carryByte, ⟨h.carry.space, h.carry.pulse, h.carry.carry⟩, h.counts⟩

/-! ### The phases of a frame -/

/-- A frame in progress with an empty accumulator. -/
def midFrame (lastCmd : Option Nat) (pos : Int) (buf : List Bool) : DS := ⟨0, true, pos, buf, lastCmd⟩

theorem midFrame_accCnt (lastCmd : Option Nat) (pos : Int) (buf : List Bool) : (midFrame lastCmd pos buf).accCnt = 0 := rfl

section Phases

variable {cfg : Config} (hframes : ReadsFrames cfg) (lastCmd : Option Nat) (now : Nat)

include hframes

/-- The header mark, with the debounce open. -/
theorem demodByte_header {ds : DS} (hr : ds.receiving = false) (hacc : ds.accCnt = 0) (hbuf : ds.bitBuf = [])
    (hopen : debounceOk cfg ds.lastCmd now = true) {n : Units} (he : inHeaderWindow cfg (elapsed cfg n 0) = true) :
    demodByte cfg ds (codeByte false n) now = (midFrame ds.lastCmd (-1) [], none) := by
  obtain ⟨hn, hskip⟩ := hframes.evaluated false n (.inr (.inr he))
  rw [demodByte_codeByte cfg ds false n now hn hskip, evaluate_idle hr, hacc]
  rw [Bool.not_false, ruleIdle_header (ds := clearAcc ds) hopen he, ← hbuf]
  rfl

theorem demodByte_headerSpace {n : Units} (he : inSpaceWindow cfg (elapsed cfg n 0) = true) :
    demodByte cfg (midFrame lastCmd (-1) []) (codeByte true n) now = (midFrame lastCmd 0 [], none) := by
  obtain ⟨hn, hskip⟩ := hframes.evaluated true n (.inl he)
  rw [demodByte_codeByte cfg _ true n now hn hskip, evaluate_headerSpace rfl rfl]
  rw [Bool.not_true, midFrame_accCnt, ruleHeaderSpace_advances he]
  rfl

/-- A mark of the length of its bit pushes the bit. -/
theorem demodByte_dataMark {pos : Int} (heven : pos % 2 = 0) (buf : List Bool) {x : BitSlot} (hx : x.markFits cfg) :
    demodByte cfg (midFrame lastCmd pos buf) (codeByte false x.mark) now =
      (midFrame lastCmd (pos + 1) (x.bit :: buf), none) := by
  unfold BitSlot.markFits at hx
  cases hbit : x.bit with
  | true =>
    rw [hbit, if_pos rfl] at hx
    obtain ⟨hn, hskip⟩ := hframes.evaluated false x.mark (.inr (.inl hx))
    rw [demodByte_codeByte cfg _ false x.mark now hn hskip, evaluate_dataMark rfl heven,
      Bool.not_false, midFrame_accCnt, ruleDataMark_one hx]
    rfl
  | false =>
    rw [hbit, if_neg Bool.false_ne_true] at hx
    obtain ⟨hn, hskip⟩ := hframes.evaluated false x.mark (.inl hx)
    rw [demodByte_codeByte cfg _ false x.mark now hn hskip, evaluate_dataMark rfl heven,
      Bool.not_false, midFrame_accCnt, ruleDataMark_zero (hframes.oneOrZero _ hx) hx]
    rfl

theorem demodByte_dataSpace {pos : Int} (hfirst : 0 ≤ pos) (hlast : pos < cfg.lastPos) (hodd : pos % 2 = 1)
    (buf : List Bool) {n : Units} (he : inSpaceWindow cfg (elapsed cfg n 0) = true) :
    demodByte cfg (midFrame lastCmd pos buf) (codeByte true n) now = (midFrame lastCmd (pos + 1) buf, none) := by
  obtain ⟨hn, hskip⟩ := hframes.evaluated true n (.inl he)
  rw [demodByte_codeByte cfg _ true n now hn hskip, evaluate_dataSpace rfl hfirst hlast hodd, Bool.not_true,
    midFrame_accCnt, ruleDataSpace_advances he]
  rfl

/-- The two codes of a data bit before the last. -/
theorem demodTimed_slot {k : Nat} (hroom : 2 * k + 1 < cfg.lastPos) (buf : List Bool) {x : BitSlot}
    (hmark : x.markFits cfg) (hspace : inSpaceWindow cfg (elapsed cfg x.space 0) = true) (t t' : Nat)
    (xs : List (Byte × Nat)) :
    demodTimed cfg (midFrame lastCmd (2 * k) buf) ((codeByte false x.mark, t) :: (codeByte true x.space, t') :: xs) =
      demodTimed cfg (midFrame lastCmd (2 * (k + 1 : Nat)) (x.bit :: buf)) xs := by
  rw [demodTimed_cons_of_silent (demodByte_dataMark hframes lastCmd t (by omega) buf hmark),
    demodTimed_cons_of_silent (demodByte_dataSpace hframes lastCmd t' (by omega) (by omega) (by omega) _ hspace)]
  rw [Nat.cast_add, Nat.cast_one, mul_add, mul_one, add_assoc]
  rfl

/-- The data bits before the last, each pushed in turn. -/
theorem demodTimed_slots {slots : List BitSlot} (hmarks : ∀ x ∈ slots, x.markFits cfg)
    (hspaces : ∀ x ∈ slots, inSpaceWindow cfg (elapsed cfg x.space 0) = true) (k : Nat)
    (hroom : 2 * (k + slots.length) < cfg.lastPos) (buf : List Bool) {timed : List (Byte × Nat)}
    (htimed : timed.map Prod.fst = slots.flatMap fun x => [codeByte false x.mark, codeByte true x.space]) :
    demodTimed cfg (midFrame lastCmd (2 * k) buf) timed =
      (midFrame lastCmd (2 * (k + slots.length : Nat)) ((slots.map BitSlot.bit).reverse ++ buf), []) := by
  induction slots generalizing k buf timed with
  | nil =>
    rw [List.flatMap_nil, List.map_eq_nil_iff] at htimed
    rw [htimed]
    rfl
  | cons x xs ih =>
    rw [List.flatMap_cons, List.cons_append, List.singleton_append] at htimed
    obtain ⟨⟨b, t⟩, timed', rfl, hb, htimed'⟩ := List.map_eq_cons_iff.mp htimed
    obtain ⟨⟨b', t'⟩, timed'', rfl, hb', htimed''⟩ := List.map_eq_cons_iff.mp htimed'
    obtain rfl : b = codeByte false x.mark := hb
    obtain rfl : b' = codeByte true x.space := hb'
    rw [List.length_cons] at hroom
    rw [demodTimed_slot hframes lastCmd (by omega) buf (hmarks x List.mem_cons_self) (hspaces x List.mem_cons_self),
      ih (fun y hy => hmarks y (List.mem_cons_of_mem x hy)) (fun y hy => hspaces y (List.mem_cons_of_mem x hy)) (k + 1)
        (by omega) (x.bit :: buf) htimed'']
    simp [Nat.add_assoc, Nat.add_comm 1]

/-- Carries count, and nothing else. -/
theorem demodTimed_carries {carries : List Bool} {timed : List (Byte × Nat)}
    (htimed : timed.map Prod.fst = carries.map (codeByte · cfg.satUnits)) (ds : DS) :
    ∃ acc, demodTimed cfg ds timed = ({ ds with accCnt := acc }, []) ∧ (carries = [] → acc = ds.accCnt) ∧
      (carries ≠ [] → 1 ≤ acc) := by
  induction carries generalizing ds timed with
  | nil =>
    rw [List.map_nil, List.map_eq_nil_iff] at htimed
    exact ⟨ds.accCnt, by rw [htimed]; rfl, fun _ => rfl, fun h => absurd rfl h⟩
  | cons s carries ih =>
    obtain ⟨⟨b, t⟩, timed', rfl, hb, htimed'⟩ := List.map_eq_cons_iff.mp htimed
    obtain rfl : b = codeByte s cfg.satUnits := hb
    have hcarry : demodByte cfg ds (codeByte s cfg.satUnits) t =
        ({ ds with accCnt := satInc cfg.accW ds.accCnt }, none) := by
      rw [demodByte, classOf_codeByte, if_neg (hframes.carryByte s), if_pos rfl]
      rfl
    obtain ⟨acc, htail, hnone, hsome⟩ := ih htimed' { ds with accCnt := satInc cfg.accW ds.accCnt }
    refine ⟨acc, by rw [demodTimed_cons_of_silent hcarry, htail], nofun, fun _ => ?_⟩
    by_cases hlast : carries = []
    · rw [hnone hlast]
      have := hframes.counts
      simp only [satInc]
      omega
    · exact hsome hlast

/-- The terminal space, in whatever accumulator, if the `TERM13` rule lets it emit. -/
theorem demodByte_terminal {ds : DS} (hr : ds.receiving = true) (hpos : ds.bitPos = cfg.lastPos) {n : Units}
    (hn : n ≠ cfg.satUnits) (hskip : codeByte true n ≠ cfg.skipByte)
    (hemit : inSpaceWindow cfg (elapsed cfg n ds.accCnt) = false ∨ cfg.term13 = .emitAnySpace) :
    demodByte cfg ds (codeByte true n) now = ({ DS.reset with lastCmd := some now }, some (emitEvent ds now)) := by
  rw [demodByte_codeByte cfg ds true n now hn hskip, evaluate_term hframes.wf hr hpos, Bool.not_true, ruleTerm_emits hemit]
  rfl

end Phases

/-! ### A whole frame -/

/-- A frame without its terminal space: `init` are the data bits before the last, `mark` is the last bit's mark. -/
def frameBody (cfg : Config) (header headerSpace : Units) (init : List BitSlot) (mark : Units) (carries : List Bool) :
    List Byte :=
  codeByte false header :: codeByte true headerSpace ::
    ((init.flatMap fun x => [codeByte false x.mark, codeByte true x.space]) ++
      codeByte false mark :: carries.map (codeByte · cfg.satUnits))

theorem frameBytes_concat (cfg : Config) (header headerSpace : Units) (init : List BitSlot) (x : BitSlot) :
    frameBytes header headerSpace (init ++ [x]) =
      frameBody cfg header headerSpace init x.mark [] ++ [codeByte true x.space] := by
  simp [frameBytes, frameBody]

theorem frameWithGap_concat (cfg : Config) (header headerSpace : Units) (init : List BitSlot) (x : BitSlot)
    (carries : List Bool) :
    frameWithGap cfg header headerSpace (init ++ [x]) carries =
      frameBody cfg header headerSpace init x.mark carries ++ [codeByte true x.space] := by
  rw [frameWithGap, frameBytes_concat cfg, List.dropLast_concat, List.getLast?_concat]
  simp [frameBody]

/-- A frame has data bits, so it has a last one. -/
theorem FrameFits.eq_concat {cfg : Config} (hc : cfg.wf = true) {header headerSpace : Units} {slots : List BitSlot}
    (h : FrameFits cfg header headerSpace slots) : ∃ init x, slots = init ++ [x] := by
  obtain ⟨-, -, -, hlast⟩ := cfg.wf_iff.mp hc
  have hne : slots ≠ [] := by
    rintro rfl
    have := h.length
    simp only [List.length_nil] at this
    omega
  exact ⟨slots.dropLast, slots.getLast hne, (List.dropLast_append_getLast hne).symm⟩

/-- The command of the bits of a frame. -/
theorem emitEvent_eq_frameCode {ds : DS} {slots : List BitSlot} (h : ds.bitBuf = (slots.map BitSlot.bit).reverse)
    (now : Nat) : emitEvent ds now = ⟨frameCode slots, classify (frameCode slots), now⟩ := by
  rw [emitEvent, h, frameCode]

section Frame

variable {cfg : Config} (hframes : ReadsFrames cfg) {header headerSpace : Units} {init : List BitSlot} {x : BitSlot}
  (hfits : FrameFits cfg header headerSpace (init ++ [x])) {carries : List Bool}

include hframes hfits

/-- Up to the terminal space: the frame stands at its last position with all its bits, and the carries are counted. -/
theorem demodTimed_frameBody {ds : DS} (hr : ds.receiving = false) (hacc : ds.accCnt = 0) (hbuf : ds.bitBuf = [])
    {timed : List (Byte × Nat)} (htimed : timed.map Prod.fst = frameBody cfg header headerSpace init x.mark carries)
    (hopen : ∀ y ∈ timed.head?, debounceOk cfg ds.lastCmd y.2 = true) :
    ∃ acc, demodTimed cfg ds timed =
        ({ midFrame ds.lastCmd cfg.lastPos ((init ++ [x]).map BitSlot.bit).reverse with accCnt := acc }, []) ∧
      (carries ≠ [] → 1 ≤ acc) ∧ (carries = [] → acc = 0) := by
  obtain ⟨-, -, -, hlast⟩ := cfg.wf_iff.mp hframes.wf
  obtain ⟨hlength, hheader, hheaderSpace, hmarks, hspaces⟩ := hfits
  rw [List.dropLast_concat] at hspaces
  rw [List.length_append, List.length_singleton] at hlength
  obtain ⟨⟨b, t⟩, timed', rfl, hb, htimed'⟩ := List.map_eq_cons_iff.mp htimed
  obtain ⟨⟨b', t'⟩, timed'', rfl, hb', htimed''⟩ := List.map_eq_cons_iff.mp htimed'
  obtain ⟨body, timedGap, rfl, hbody, htimedGap⟩ := List.map_eq_append_iff.mp htimed''
  obtain ⟨⟨b'', t''⟩, gap, rfl, hb'', hgap⟩ := List.map_eq_cons_iff.mp htimedGap
  obtain rfl : b = codeByte false header := hb
  obtain rfl : b' = codeByte true headerSpace := hb'
  obtain rfl : b'' = codeByte false x.mark := hb''
  have hslots : demodTimed cfg (midFrame ds.lastCmd 0 []) body =
      (midFrame ds.lastCmd (2 * init.length) (init.map BitSlot.bit).reverse, []) := by
    simpa using demodTimed_slots hframes ds.lastCmd (fun y hy => hmarks y (List.mem_append_left _ hy)) hspaces 0
      (by omega) [] hbody
  have hmark := demodByte_dataMark hframes ds.lastCmd t'' (pos := 2 * init.length) (by omega)
    (init.map BitSlot.bit).reverse (hmarks x (List.mem_append_right _ List.mem_cons_self))
  have hpos : (2 * init.length + 1 : Int) = cfg.lastPos := by omega
  have hbits : x.bit :: (init.map BitSlot.bit).reverse = ((init ++ [x]).map BitSlot.bit).reverse := by simp
  rw [hpos, hbits] at hmark
  obtain ⟨acc, hcarries, hnone, hsome⟩ := demodTimed_carries hframes hgap
    (midFrame ds.lastCmd cfg.lastPos ((init ++ [x]).map BitSlot.bit).reverse)
  refine ⟨acc, ?_, hsome, hnone⟩
  rw [demodTimed_cons_of_silent (demodByte_header hframes t hr hacc hbuf (hopen _ rfl) hheader),
    demodTimed_cons_of_silent (demodByte_headerSpace hframes ds.lastCmd t' hheaderSpace),
    demodTimed_append_of_silent hslots, demodTimed_cons_of_silent hmark, hcarries]

/-- The whole frame: one event, at the time of the terminal space. -/
theorem demodTimed_frame {ds : DS} (hr : ds.receiving = false) (hacc : ds.accCnt = 0) (hbuf : ds.bitBuf = [])
    (hn : x.space ≠ cfg.satUnits) (hskip : codeByte true x.space ≠ cfg.skipByte)
    (hemit : cfg.term13 = .emitAnySpace ∨ carries ≠ [] ∨ inSpaceWindow cfg (elapsed cfg x.space 0) = false)
    {timed : List (Byte × Nat)} (htimed : timed.map Prod.fst = frameBody cfg header headerSpace init x.mark carries)
    (hopen : ∀ y ∈ timed.head?, debounceOk cfg ds.lastCmd y.2 = true) (now : Nat) :
    demodTimed cfg ds (timed ++ [(codeByte true x.space, now)]) =
      ({ DS.reset with lastCmd := some now },
        [⟨frameCode (init ++ [x]), classify (frameCode (init ++ [x])), now⟩]) := by
  obtain ⟨acc, hbody, hsome, hnone⟩ := demodTimed_frameBody hframes hfits hr hacc hbuf htimed hopen
  have hout : inSpaceWindow cfg (elapsed cfg x.space acc) = false ∨ cfg.term13 = .emitAnySpace := by
    by_cases hgap : carries = []
    · obtain h | h | h := hemit
      · exact .inr h
      · exact absurd hgap h
      · exact .inl (by rwa [hnone hgap])
    · exact .inl (no_window_of_carry hframes.carry x.space (hsome hgap)).1
  have hterminal := demodByte_terminal hframes now
    (ds := { midFrame ds.lastCmd cfg.lastPos ((init ++ [x]).map BitSlot.bit).reverse with accCnt := acc })
    rfl rfl hn hskip hout
  rw [emitEvent_eq_frameCode rfl] at hterminal
  rw [demodTimed_append_of_silent hbody, demodTimed, hterminal]
  simp only [demodTimed, Option.toList_some, List.append_nil]

end Frame

/-! ### Runs over a stream -/

/-- A code as the host presents it on its own. -/
def codeInput (x : Byte × Nat) : Input := .code x.1 x.2

/-- Codes presented one by one are demodulated each at its own sampled time. -/
theorem run_codes (xs : List (Byte × Nat)) {s : State} (hp : s.present = true) {rest : List Input}
    (hin : s.inputs = xs.map codeInput ++ rest) :
    ∃ t, Host.Core.run core xs.length s = .next t ∧
      t.ds = (demodTimed s.cfg s.ds (xs.map fun x => (x.1, timeIn s.cfg x.2))).1 ∧
      t.events = s.events ++ (demodTimed s.cfg s.ds (xs.map fun x => (x.1, timeIn s.cfg x.2))).2 ∧ t.inputs = rest := by
  induction xs generalizing s with
  | nil => exact ⟨s, run_zero s, rfl, (List.append_nil _).symm, hin⟩
  | cons x xs ih =>
    have hstep := step_transaction (now := x.2) (item := .code x.1) hin hp
    obtain ⟨t, hrun, hds, hevents, hinputs⟩ :=
      ih (s := serve (.code x.1) (taken s (codeInput x) (xs.map codeInput ++ rest))) hp rfl
    refine ⟨t, (run_succ hstep xs.length).trans hrun, ?_, ?_, hinputs⟩
    · rw [hds, serve_ds, transact_code]
      rfl
    · rw [hevents, serve_events, serve_ds, transact_code, List.append_assoc]
      rfl

/-- The codes of a sequence of packets, each with the sampled time of its packet. -/
def packetCodes (cfg : Config) (ps : List DataPacket) : List (Byte × Nat) :=
  ps.flatMap fun p => p.codes.map (·, timeIn cfg p.now)

theorem demodTimed_packetCodes_cons (cfg : Config) (ds : DS) (p : DataPacket) (ps : List DataPacket) :
    demodTimed cfg ds (packetCodes cfg (p :: ps)) =
      ((demodTimed cfg (demodCodes cfg (timeIn cfg p.now) ds p.codes).1 (packetCodes cfg ps)).1,
        (demodCodes cfg (timeIn cfg p.now) ds p.codes).2 ++
          (demodTimed cfg (demodCodes cfg (timeIn cfg p.now) ds p.codes).1 (packetCodes cfg ps)).2) := by
  rw [packetCodes, List.flatMap_cons, demodTimed_append, demodTimed_oneTime]
  rfl

/-- Receiver-data packets demodulate their codes at the packets' sampled times. -/
theorem run_packets (ps : List DataPacket) {s : State} (hc : s.cfg.wf = true) (hp : s.present = true)
    (hwf : ∀ p ∈ ps, (Instr.rxd p.codes p.declLen).wf s.cfg = true) {rest : List Input}
    (hin : s.inputs = ps.map DataPacket.input ++ rest) :
    ∃ t, Host.Core.run core ps.length s = .next t ∧ t.ds = (demodTimed s.cfg s.ds (packetCodes s.cfg ps)).1 ∧
      t.events = s.events ++ (demodTimed s.cfg s.ds (packetCodes s.cfg ps)).2 ∧ t.inputs = rest := by
  induction ps generalizing s with
  | nil => exact ⟨s, run_zero s, rfl, (List.append_nil _).symm, hin⟩
  | cons p ps ih =>
    have hstep := step_transaction (now := p.now) (item := .packet (p.codes ++ [p.declLen])) hin hp
    have hd : decode s.cfg (.packet (p.codes ++ [p.declLen])) = .ok (.rxd p.codes p.declLen) :=
      decodePacket_rxd s.cfg hc p.codes p.declLen (hwf p List.mem_cons_self)
    have htransact := transact_ok (s := taken s p.input (ps.map DataPacket.input ++ rest)) hd
    obtain ⟨t, hrun, hds, hevents, hinputs⟩ := ih
      (s := serve (.packet (p.codes ++ [p.declLen])) (taken s p.input (ps.map DataPacket.input ++ rest))) hc hp (fun q hq => hwf q (List.mem_cons_of_mem p hq)) rfl
    refine ⟨t, (run_succ hstep ps.length).trans hrun, ?_, ?_, hinputs⟩
    · rw [hds, serve_ds, htransact, demodTimed_packetCodes_cons]
      rfl
    · rw [hevents, serve_events, serve_ds, htransact, demodTimed_packetCodes_cons, List.append_assoc]
      rfl

/-- The codes of packets that are not skips, each with its packet's sampled time. -/
def liveTimed (cfg : Config) (ps : List DataPacket) : List (Byte × Nat) :=
  (packetCodes cfg ps).filter (·.1 != cfg.skipByte)

theorem liveTimed_map_fst (cfg : Config) (ps : List DataPacket) : (liveTimed cfg ps).map Prod.fst = liveCodes cfg ps := by
  have hcodes : (packetCodes cfg ps).map Prod.fst = ps.flatMap DataPacket.codes := by
    simp [packetCodes, List.map_flatMap, Function.comp_def]
  rw [liveCodes, ← hcodes, List.filter_map]
  rfl

theorem liveTimed_append (cfg : Config) (ps qs : List DataPacket) :
    liveTimed cfg (ps ++ qs) = liveTimed cfg ps ++ liveTimed cfg qs := by
  simp [liveTimed, packetCodes]

theorem time_of_mem_liveTimed {cfg : Config} {p : DataPacket} {y : Byte × Nat} (h : y ∈ liveTimed cfg [p]) :
    y.2 = timeIn cfg p.now := by
  simp only [liveTimed, packetCodes, List.flatMap_singleton, List.mem_filter, List.mem_map] at h
  obtain ⟨⟨b, -, rfl⟩, -⟩ := h
  rfl

/-- The codes of a sequence of packets, cut where the last code of a frame lies in the last packet: from there on all codes
have that packet's time. -/
theorem liveTimed_split {cfg : Config} {ps : List DataPacket} {last : DataPacket} {body tail : List Byte} {z : Byte}
    (hcodes : liveCodes cfg (ps ++ [last]) = body ++ [z] ++ tail) (hlength : (liveCodes cfg ps).length ≤ body.length) :
    ∃ timed, timed.map Prod.fst = body ∧ liveTimed cfg (ps ++ [last]) =
      timed ++ [(z, timeIn cfg last.now)] ++ tail.map (·, timeIn cfg last.now) := by
  rw [← liveTimed_map_fst, List.append_assoc] at hcodes
  obtain ⟨timed, ending, hsplit, rfl, hending⟩ := List.map_eq_append_iff.mp hcodes
  have hlast : ∀ y ∈ ending, y ∈ liveTimed cfg [last] := by
    rw [liveTimed_append] at hsplit
    obtain ⟨before, -, hin⟩ | ⟨extra, hextra, hin⟩ := List.append_eq_append_iff.mp hsplit
    · exact fun y hy => hin ▸ List.mem_append_right before hy
    · have hnil : extra = [] := by
        rw [← liveTimed_map_fst, List.length_map, List.length_map, hextra, List.length_append] at hlength
        exact List.length_eq_zero_iff.mp (by omega)
      exact fun y hy => by rwa [hin, hnil] at hy
  have htimes : ending = (ending.map Prod.fst).map (·, timeIn cfg last.now) := by
    rw [List.map_map]
    refine (List.map_id ending).symm.trans (List.map_congr_left fun y hy => ?_)
    exact Prod.ext rfl (time_of_mem_liveTimed (hlast y hy))
  refine ⟨timed, rfl, ?_⟩
  rw [hsplit, htimes, hending, List.map_append, List.append_assoc]
  rfl

/-- The first code of a frame that begins in the first packet has that packet's time. -/
theorem head_liveTimed {cfg : Config} {first : DataPacket} (hfirst : liveCodes cfg [first] ≠ []) {ps : List DataPacket}
    {timed after : List (Byte × Nat)} (h : liveTimed cfg (first :: ps) = timed ++ after) :
    ∀ y ∈ timed.head?, y.2 = timeIn cfg first.now := by
  intro y hy
  rw [← List.singleton_append, liveTimed_append] at h
  have hne : liveTimed cfg [first] ≠ [] := by
    rintro hnil
    rw [← liveTimed_map_fst, hnil] at hfirst
    exact hfirst rfl
  apply time_of_mem_liveTimed
  have hhead : (liveTimed cfg [first]).head? = some y := by
    rw [← List.head?_append_of_ne_nil _ hne, h, List.head?_append, hy]
    rfl
  exact List.mem_of_mem_head? hhead

/-- The codes behind a frame in its packet change the accumulator alone. -/
theorem demodCodes_behind_frame (cfg : Config) (now : Nat) (tail : List Byte) :
    ∃ acc, demodCodes cfg now { DS.reset with lastCmd := some now } tail =
      ({ DS.reset with accCnt := acc, lastCmd := some now }, []) ∧ (tail = [] → acc = 0) := by
  cases tail with
  | nil => exact ⟨0, rfl, fun _ => rfl⟩
  | cons b bs =>
    obtain ⟨acc, h⟩ := demodCodes_after_command cfg now (b :: bs)
    exact ⟨acc, h, nofun⟩

/-! ### A stream of single codes -/

/-- The codes of a stream with their sampled times, the k-th at `time k`. -/
def sampledCodes (cfg : Config) (time : Nat → Nat) (bytes : List Byte) : List (Byte × Nat) :=
  bytes.zipIdx.map fun y => (y.1, timeIn cfg (time y.2))

theorem sampledCodes_concat (cfg : Config) (time : Nat → Nat) (bytes : List Byte) (b : Byte) :
    sampledCodes cfg time (bytes ++ [b]) = sampledCodes cfg time bytes ++ [(b, timeIn cfg (time bytes.length))] := by
  simp [sampledCodes, List.zipIdx_append]

theorem sampledCodes_map_fst (cfg : Config) (time : Nat → Nat) (bytes : List Byte) :
    (sampledCodes cfg time bytes).map Prod.fst = bytes := by
  rw [sampledCodes, List.map_map]
  exact List.zipIdx_map_fst 0 bytes

theorem run_presentCodes {s : State} (hp : s.present = true) {time : Nat → Nat} {bytes : List Byte} {rest : List Input}
    (hin : s.inputs = presentCodes time bytes ++ rest) :
    ∃ t, Host.Core.run core bytes.length s = .next t ∧
      t.ds = (demodTimed s.cfg s.ds (sampledCodes s.cfg time bytes)).1 ∧
      t.events = s.events ++ (demodTimed s.cfg s.ds (sampledCodes s.cfg time bytes)).2 ∧ t.inputs = rest := by
  have hpresented : presentCodes time bytes = (bytes.zipIdx.map fun y => (y.1, time y.2)).map codeInput := by
    rw [presentCodes, List.map_map]
    rfl
  obtain ⟨t, hrun, hds, hevents, hinputs⟩ := run_codes _ hp (hin.trans (congrArg (· ++ rest) hpresented))
  rw [List.length_map, List.length_zipIdx] at hrun
  rw [List.map_map] at hds hevents
  exact ⟨t, hrun, hds, hevents, hinputs⟩

end Sys2Proof.Machine

namespace Sys2Proof

open Machine

/-! ### The obligations -/

/-- Settles O43: fifteen codes bring the frame to its last position, and the sixteenth emits. -/
theorem validFrameEmitsItsCode : Obligations.ValidFrameEmitsItsCode := by
  unfold Obligations.ValidFrameEmitsItsCode
  intro s header headerSpace slots time rest hc hp hr hacc hbuf hopen hfits hspaces hin
  have hframes : ReadsFrames s.cfg := hc ▸ readsFrames_default
  obtain ⟨init, x, rfl⟩ := hfits.eq_concat hframes.wf
  obtain ⟨hzero, hfull⟩ := hspaces x (List.mem_append_right _ List.mem_cons_self)
  have hskip := codeByte_ne_skipByte (cfg := s.cfg) (by rw [hc]; rfl) true hzero
  have hinit : init.length = 6 := by
    have hlength := hfits.length
    rw [hc, List.length_append] at hlength
    exact Nat.succ.inj hlength
  have hlength : (frameBody s.cfg header headerSpace init x.mark []).length = 15 := by
    simp [frameBody, hinit]
  rw [frameBytes_concat s.cfg] at hin
  obtain ⟨t, hrun, hds, hevents, hinputs⟩ := run_presentCodes hp hin
  rw [sampledCodes_concat, hlength, demodTimed_frame hframes hfits hr hacc hbuf (by rwa [hc]) hskip
    (.inl (by rw [hc]; rfl)) (sampledCodes_map_fst ..) (by rintro y ⟨⟩; exact hopen)] at hds hevents
  rw [List.length_append, hlength] at hrun
  exact ⟨t, hrun, hds, hevents, hinputs⟩

/-- Settles O44: the codes that are not skips are the frame, which ends in the last packet, and the codes behind it. -/
theorem validFrameInPacketsEmitsItsCode : Obligations.ValidFrameInPacketsEmitsItsCode := by
  unfold Obligations.ValidFrameInPacketsEmitsItsCode
  intro s header headerSpace slots carries first middle last tail rest hc hp hr hacc hbuf hopen hfits hspaces hterm hwf
    hfirst hcodes hlast hin
  have hframes : ReadsFrames s.cfg := hc ▸ readsFrames_default.withTerm13 _
  obtain ⟨init, x, rfl⟩ := hfits.eq_concat hframes.wf
  obtain ⟨hzero, hfull⟩ := hspaces x (List.mem_append_right _ List.mem_cons_self)
  have hskip := codeByte_ne_skipByte (cfg := s.cfg) (by rw [hc]; rfl) true hzero
  have hemit : s.cfg.term13 = .emitAnySpace ∨ carries ≠ [] ∨ inSpaceWindow s.cfg (elapsed s.cfg x.space 0) = false :=
    hterm.imp_right (.imp_right fun h => h x (List.getLast?_concat ..))
  rw [frameWithGap_concat] at hcodes hlast
  rw [List.length_append, List.length_singleton, Nat.lt_succ_iff] at hlast
  obtain ⟨timed, htimed, hsplit⟩ := liveTimed_split hcodes hlast
  have hheader : ∀ y ∈ timed.head?, debounceOk s.cfg s.ds.lastCmd y.2 = true := by
    intro y hy
    rw [List.append_assoc] at hsplit
    rw [head_liveTimed hfirst hsplit y hy]
    exact hopen
  obtain ⟨acc, htail, hnone⟩ := demodCodes_behind_frame s.cfg (timeIn s.cfg last.now) tail
  obtain ⟨t, hrun, hds, hevents, hinputs⟩ := run_packets (first :: middle ++ [last]) hframes.wf hp hwf hin
  rw [demodTimed_live, ← liveTimed, hsplit, demodTimed_append, demodTimed_oneTime,
    demodTimed_frame hframes hfits hr hacc hbuf (by rwa [hc]) hskip hemit htimed hheader, htail] at hds hevents
  rw [List.length_append, List.length_cons] at hrun
  exact ⟨t, acc, hrun, hds, hnone, hevents, hinputs⟩

end Sys2Proof
end
